-- ==== Sys2Proof/Word.lean ====
section
/-! DEFINITION. The word types of the core (10_state.md R21, R24, R25, R26; 30_encoding.md R56). Their arithmetic is
that of `BitVec`: `+` and `-` wrap at the width (00_scope.md R11). -/

namespace Sys2Proof

/-- One memory cell, general register or timer: 8 bits (10_state.md R21, R30, R32). -/
abbrev Byte := BitVec 8

/-- The index register, the program counter, a stack cell, an instruction word: 16 bits (10_state.md R24, R25, R26). -/
abbrev Word := BitVec 16

/-- The 12-bit address field `NNN` of an instruction word (30_encoding.md R56). -/
abbrev Addr12 := BitVec 12

/-- A register number, the value of a field `X` or `Y` (30_encoding.md R58). -/
abbrev RegIdx := Fin 16

end Sys2Proof
end

