-- ==== Sys2Proof/Syntax.lean ====
section
/-! DEFINITION. The 35 operations of spec/opcode_table.json, one constructor a row, in the order of 30_encoding.md R59. -/

namespace Sys2Proof

/-- An instruction with its operand fields (30_encoding.md R56 to R60). `x` and `y` are the fields `X` and `Y`, `nn`
is `NN`, `nnn` is `NNN`, `n` is `N`. -/
inductive Instr where
  /-- `SYS NNN`, `0NNN` but for `00E0` and `00EE` (41_control.md R85). -/
  | sys (nnn : Addr12)
  /-- `CLS`, `00E0` (44_display.md R130). -/
  | cls
  /-- `RET`, `00EE` (41_control.md R86). -/
  | ret
  /-- `JP NNN`, `1NNN` (41_control.md R87). -/
  | jp (nnn : Addr12)
  /-- `CALL NNN`, `2NNN` (41_control.md R88). -/
  | call (nnn : Addr12)
  /-- `SE Vx, NN`, `3XNN` (41_control.md R89). -/
  | seImm (x : RegIdx) (nn : Byte)
  /-- `SNE Vx, NN`, `4XNN` (41_control.md R90). -/
  | sneImm (x : RegIdx) (nn : Byte)
  /-- `SE Vx, Vy`, `5XY0` (41_control.md R91). -/
  | seReg (x y : RegIdx)
  /-- `LD Vx, NN`, `6XNN` (42_alu.md R101). -/
  | ldImm (x : RegIdx) (nn : Byte)
  /-- `ADD Vx, NN`, `7XNN` (42_alu.md R102). -/
  | addImm (x : RegIdx) (nn : Byte)
  /-- `LD Vx, Vy`, `8XY0` (42_alu.md R103). -/
  | ldReg (x y : RegIdx)
  /-- `OR Vx, Vy`, `8XY1` (42_alu.md R104). -/
  | orReg (x y : RegIdx)
  /-- `AND Vx, Vy`, `8XY2` (42_alu.md R105). -/
  | andReg (x y : RegIdx)
  /-- `XOR Vx, Vy`, `8XY3` (42_alu.md R106). -/
  | xorReg (x y : RegIdx)
  /-- `ADD Vx, Vy`, `8XY4` (42_alu.md R107). -/
  | addReg (x y : RegIdx)
  /-- `SUB Vx, Vy`, `8XY5` (42_alu.md R108). -/
  | sub (x y : RegIdx)
  /-- `SHR Vx`, `8XY6`; the field `Y` is decoded and ignored (42_alu.md R109). -/
  | shr (x y : RegIdx)
  /-- `SUBN Vx, Vy`, `8XY7` (42_alu.md R110). -/
  | subn (x y : RegIdx)
  /-- `SHL Vx`, `8XYE`; the field `Y` is decoded and ignored (42_alu.md R111). -/
  | shl (x y : RegIdx)
  /-- `SNE Vx, Vy`, `9XY0` (41_control.md R92). -/
  | sneReg (x y : RegIdx)
  /-- `LD I, NNN`, `ANNN` (43_index_memory.md R120). -/
  | ldI (nnn : Addr12)
  /-- `JP V0, NNN`, `BNNN` (41_control.md R93). -/
  | jpV0 (nnn : Addr12)
  /-- `RND Vx, NN`, `CXNN` (42_alu.md R112). -/
  | rnd (x : RegIdx) (nn : Byte)
  /-- `DRW Vx, Vy, N`, `DXYN`; `n` is the row count 0..15 (44_display.md R131). -/
  | drw (x y : RegIdx) (n : Fin 16)
  /-- `SKP Vx`, `EX9E` (45_keys_timers.md R140). -/
  | skp (x : RegIdx)
  /-- `SKNP Vx`, `EXA1` (45_keys_timers.md R141). -/
  | sknp (x : RegIdx)
  /-- `LD Vx, DT`, `FX07` (45_keys_timers.md R142). -/
  | ldVxDt (x : RegIdx)
  /-- `LD Vx, K`, `FX0A` (45_keys_timers.md R145). -/
  | ldVxK (x : RegIdx)
  /-- `LD DT, Vx`, `FX15` (45_keys_timers.md R143). -/
  | ldDtVx (x : RegIdx)
  /-- `LD ST, Vx`, `FX18` (45_keys_timers.md R144). -/
  | ldStVx (x : RegIdx)
  /-- `ADD I, Vx`, `FX1E` (43_index_memory.md R121). -/
  | addI (x : RegIdx)
  /-- `LD F, Vx`, `FX29` (43_index_memory.md R122). -/
  | ldF (x : RegIdx)
  /-- `LD B, Vx`, `FX33` (43_index_memory.md R123). -/
  | ldB (x : RegIdx)
  /-- `LD [I], Vx`, `FX55` (43_index_memory.md R124). -/
  | storeRegs (x : RegIdx)
  /-- `LD Vx, [I]`, `FX65` (43_index_memory.md R125). -/
  | loadRegs (x : RegIdx)
deriving DecidableEq, Repr

end Sys2Proof
end

