-- ==== Sys2Proof/Decode.lean ====
section
/-! DEFINITION. The decoder of 30_encoding.md R60 and, after it, the encoder written from the patterns of R57 and R59. -/

namespace Sys2Proof

/-! ## The fields of a word (30_encoding.md R56) -/

/-- `w[lo+len-1 : lo]`, the unsigned field of `len` bits whose lowest bit is `lo` (00_scope.md R9). -/
def bits (w : Word) (lo len : Nat) : Nat := w.toNat / 2 ^ lo % 2 ^ len

/-- `F = w[15:12]`, nibble 1, the family. -/
def fieldF (w : Word) : Nat := bits w 12 4

/-- `X = w[11:8]`, nibble 2. -/
def fieldX (w : Word) : RegIdx := Fin.ofNat 16 (bits w 8 4)

/-- `Y = w[7:4]`, nibble 3. -/
def fieldY (w : Word) : RegIdx := Fin.ofNat 16 (bits w 4 4)

/-- `N = w[3:0]`, nibble 4, as a number: the sub-opcode of families 5, 8 and 9. -/
def fieldN (w : Word) : Nat := bits w 0 4

/-- `N = w[3:0]` as the row count of `DRW`. -/
def fieldRows (w : Word) : Fin 16 := Fin.ofNat 16 (bits w 0 4)

/-- `NN = w[7:0]`, the low byte. -/
def fieldNN (w : Word) : Byte := BitVec.ofNat 8 (bits w 0 8)

/-- `NNN = w[11:0]`, the low 12 bits. -/
def fieldNNN (w : Word) : Addr12 := BitVec.ofNat 12 (bits w 0 12)

/-! ## Decoding -/

/-- Why bytes are no instruction. -/
inductive DecodeError where
  /-- The word matches no pattern of the map: `Illegal` (30_encoding.md R61). -/
  | illegal (w : Word)
  /-- Fewer than the two bytes of a word are given (30_encoding.md R55). -/
  | truncated
deriving DecidableEq, Repr

/-- Family 8: the sub-opcode is `N`, matched exactly (30_encoding.md R60). -/
def decodeFamily8 (w : Word) : Except DecodeError Instr :=
  match fieldN w with
  | 0x0 => .ok (.ldReg (fieldX w) (fieldY w))
  | 0x1 => .ok (.orReg (fieldX w) (fieldY w))
  | 0x2 => .ok (.andReg (fieldX w) (fieldY w))
  | 0x3 => .ok (.xorReg (fieldX w) (fieldY w))
  | 0x4 => .ok (.addReg (fieldX w) (fieldY w))
  | 0x5 => .ok (.sub (fieldX w) (fieldY w))
  | 0x6 => .ok (.shr (fieldX w) (fieldY w))
  | 0x7 => .ok (.subn (fieldX w) (fieldY w))
  | 0xE => .ok (.shl (fieldX w) (fieldY w))
  | _ => .error (.illegal w)

/-- Family E: the sub-opcode is `NN`, matched exactly (30_encoding.md R60). -/
def decodeFamilyE (w : Word) : Except DecodeError Instr :=
  match (fieldNN w).toNat with
  | 0x9E => .ok (.skp (fieldX w))
  | 0xA1 => .ok (.sknp (fieldX w))
  | _ => .error (.illegal w)

/-- Family F: the sub-opcode is `NN`, matched exactly (30_encoding.md R60). -/
def decodeFamilyF (w : Word) : Except DecodeError Instr :=
  match (fieldNN w).toNat with
  | 0x07 => .ok (.ldVxDt (fieldX w))
  | 0x0A => .ok (.ldVxK (fieldX w))
  | 0x15 => .ok (.ldDtVx (fieldX w))
  | 0x18 => .ok (.ldStVx (fieldX w))
  | 0x1E => .ok (.addI (fieldX w))
  | 0x29 => .ok (.ldF (fieldX w))
  | 0x33 => .ok (.ldB (fieldX w))
  | 0x55 => .ok (.storeRegs (fieldX w))
  | 0x65 => .ok (.loadRegs (fieldX w))
  | _ => .error (.illegal w)

/-- Family 0: two whole words, every other word is `SYS` (30_encoding.md R60, R62). -/
def decodeFamily0 (w : Word) : Except DecodeError Instr :=
  if w = 0x00E0#16 then .ok .cls
  else if w = 0x00EE#16 then .ok .ret
  else .ok (.sys (fieldNNN w))

/-- `decode(w)` of 30_encoding.md R60: one of the 35 operations, or illegal. -/
def decodeWord (w : Word) : Except DecodeError Instr :=
  match fieldF w with
  | 0x0 => decodeFamily0 w
  | 0x1 => .ok (.jp (fieldNNN w))
  | 0x2 => .ok (.call (fieldNNN w))
  | 0x3 => .ok (.seImm (fieldX w) (fieldNN w))
  | 0x4 => .ok (.sneImm (fieldX w) (fieldNN w))
  | 0x5 => if fieldN w = 0 then .ok (.seReg (fieldX w) (fieldY w)) else .error (.illegal w)
  | 0x6 => .ok (.ldImm (fieldX w) (fieldNN w))
  | 0x7 => .ok (.addImm (fieldX w) (fieldNN w))
  | 0x8 => decodeFamily8 w
  | 0x9 => if fieldN w = 0 then .ok (.sneReg (fieldX w) (fieldY w)) else .error (.illegal w)
  | 0xA => .ok (.ldI (fieldNNN w))
  | 0xB => .ok (.jpV0 (fieldNNN w))
  | 0xC => .ok (.rnd (fieldX w) (fieldNN w))
  | 0xD => .ok (.drw (fieldX w) (fieldY w) (fieldRows w))
  | 0xE => decodeFamilyE w
  | _ => decodeFamilyF w

/-- The word at two bytes, the lower address first: big-endian (20_memory.md R42). -/
def wordOfBytes (hi lo : Byte) : Word := BitVec.ofNat 16 (hi.toNat * 256 + lo.toNat)

/-- The byte of a word that lies at the lower address: bits 15:8 (20_memory.md R42). -/
def hiByte (w : Word) : Byte := BitVec.ofNat 8 (bits w 8 8)

/-- The byte of a word that lies at the higher address: bits 7:0 (20_memory.md R42). -/
def loByte (w : Word) : Byte := BitVec.ofNat 8 (bits w 0 8)

/-- Decoding of bytes as they lie in memory: the instruction and the bytes after it, or the reason there is none.
One word is one instruction (30_encoding.md R55, R63). -/
def decode (bs : List Byte) : Except DecodeError (Instr × List Byte) :=
  match bs with
  | hi :: lo :: rest =>
    match decodeWord (wordOfBytes hi lo) with
    | .ok i => .ok (i, rest)
    | .error e => .error e
  | [_] => .error .truncated
  | [] => .error .truncated

/-! ## Encoding -/

/-- The word of format `NNN`: a family and a 12-bit address (30_encoding.md R57). -/
def packNNN (f : Nat) (nnn : Addr12) : Word := BitVec.ofNat 16 (f * 4096 + nnn.toNat)

/-- The word of formats `XNN` and `X`: a family, a register and a low byte (30_encoding.md R57). -/
def packXNN (f : Nat) (x : RegIdx) (nn : Nat) : Word := BitVec.ofNat 16 (f * 4096 + x.val * 256 + nn)

/-- The word of formats `XY` and `XYN`: a family, two registers and a low nibble (30_encoding.md R57). -/
def packXYN (f : Nat) (x y : RegIdx) (n : Nat) : Word :=
  BitVec.ofNat 16 (f * 4096 + x.val * 256 + y.val * 16 + n)

/-- The word of an instruction, by the patterns of 30_encoding.md R59. -/
def encode (i : Instr) : Word :=
  match i with
  | .sys nnn => packNNN 0x0 nnn
  | .cls => 0x00E0#16
  | .ret => 0x00EE#16
  | .jp nnn => packNNN 0x1 nnn
  | .call nnn => packNNN 0x2 nnn
  | .seImm x nn => packXNN 0x3 x nn.toNat
  | .sneImm x nn => packXNN 0x4 x nn.toNat
  | .seReg x y => packXYN 0x5 x y 0x0
  | .ldImm x nn => packXNN 0x6 x nn.toNat
  | .addImm x nn => packXNN 0x7 x nn.toNat
  | .ldReg x y => packXYN 0x8 x y 0x0
  | .orReg x y => packXYN 0x8 x y 0x1
  | .andReg x y => packXYN 0x8 x y 0x2
  | .xorReg x y => packXYN 0x8 x y 0x3
  | .addReg x y => packXYN 0x8 x y 0x4
  | .sub x y => packXYN 0x8 x y 0x5
  | .shr x y => packXYN 0x8 x y 0x6
  | .subn x y => packXYN 0x8 x y 0x7
  | .shl x y => packXYN 0x8 x y 0xE
  | .sneReg x y => packXYN 0x9 x y 0x0
  | .ldI nnn => packNNN 0xA nnn
  | .jpV0 nnn => packNNN 0xB nnn
  | .rnd x nn => packXNN 0xC x nn.toNat
  | .drw x y n => packXYN 0xD x y n.val
  | .skp x => packXNN 0xE x 0x9E
  | .sknp x => packXNN 0xE x 0xA1
  | .ldVxDt x => packXNN 0xF x 0x07
  | .ldVxK x => packXNN 0xF x 0x0A
  | .ldDtVx x => packXNN 0xF x 0x15
  | .ldStVx x => packXNN 0xF x 0x18
  | .addI x => packXNN 0xF x 0x1E
  | .ldF x => packXNN 0xF x 0x29
  | .ldB x => packXNN 0xF x 0x33
  | .storeRegs x => packXNN 0xF x 0x55
  | .loadRegs x => packXNN 0xF x 0x65

/-- The two bytes of an instruction as they lie in memory (20_memory.md R42). -/
def encodeBytes (i : Instr) : List Byte := [hiByte (encode i), loByte (encode i)]

/-! ## The opcode table's numbering -/

/-- The word of a table row of `nbits` bits: every bit above `nbits` is 0. The table numbers bit 0 as the least
significant bit of the one word an instruction has (30_encoding.md R55). -/
def tableWord (nbits w : Nat) : Word := BitVec.ofNat 16 (w % 2 ^ nbits)

/-- What the decoder reads from the bytes of a table row's word, laid out as memory holds them. -/
def decodeTableWord (nbits w : Nat) : Option Instr :=
  match decode [hiByte (tableWord nbits w), loByte (tableWord nbits w)] with
  | .ok (i, _) => some i
  | .error _ => none

end Sys2Proof
end

