-- ==== Sys2Proof/Config.lean ====
section
/-! DEFINITION. What 00_scope.md R8 leaves open: the parameters of an implementation and the free draws of a step. -/

namespace Sys2Proof

/-- How the program counter advances (00_scope.md R8, `PC_CONTRACT`). -/
inductive PcContract where
  /-- One advance of 2 per instruction, authoritative targets (40_pipeline.md R74). -/
  | canonical
  /-- The repository's double advance: the canonical final pc plus 2 (40_pipeline.md R75). -/
  | referenceDouble
deriving DecidableEq, Repr

/-- What `SYS NNN` does (00_scope.md R8, `SYS_POLICY`; 41_control.md R85). -/
inductive SysPolicy where
  /-- It raises `UnspecifiedOperation`. -/
  | fault
  /-- It only advances the program counter. -/
  | noOp
deriving DecidableEq, Repr

/-- The parameters 00_scope.md R8 gives a model as arguments, each with its value on this machine. -/
structure Config where
  /-- `PC_CONTRACT`. -/
  pcContract : PcContract
  /-- `SYS_POLICY`. -/
  sysPolicy  : SysPolicy
  /-- `GLYPH_ROM`, the 80 bytes written at 0x000 by construction and reset (10_state.md R33). -/
  glyphRom   : Vector Byte 80
deriving DecidableEq, Repr

/-- The draw `rand` of `RND` (42_alu.md R112): a free byte under no law, one for each value of the draw counter.
It has no body, so nothing can be proved of its value (notes/assumptions/4.md). -/
opaque Config.randDraw : Nat → Byte

/-- The draw `wait_key_value` of `LD Vx, K` (45_keys_timers.md R145): a free byte under no law, one for each value of
the draw counter. It has no body (notes/assumptions/4.md). -/
opaque Config.waitKeyDraw : Nat → Byte

end Sys2Proof
end

