-- ==== Sys2Proof/Machine/Glyphs.lean ====
section
/-! DEFINITION. The glyph set and the default parameters (10_state.md R33, 00_scope.md R8). -/

namespace Sys2Proof.Machine

/-- The table of 10_state.md R33: 16 glyphs of 5 bytes, glyph `k` at `5k` (PRESUMED there by the spec, from general
knowledge: notes/assumptions/3.md). -/
def defaultGlyphRom : Vector Byte 80 := #v[
  0xF0, 0x90, 0x90, 0x90, 0xF0,
  0x20, 0x60, 0x20, 0x20, 0x70,
  0xF0, 0x10, 0xF0, 0x80, 0xF0,
  0xF0, 0x10, 0xF0, 0x10, 0xF0,
  0x90, 0x90, 0xF0, 0x10, 0x10,
  0xF0, 0x80, 0xF0, 0x10, 0xF0,
  0xF0, 0x80, 0xF0, 0x90, 0xF0,
  0xF0, 0x10, 0x20, 0x40, 0x40,
  0xF0, 0x90, 0xF0, 0x90, 0xF0,
  0xF0, 0x90, 0xF0, 0x10, 0xF0,
  0xF0, 0x90, 0xF0, 0x90, 0x90,
  0xE0, 0x90, 0xE0, 0x90, 0xE0,
  0xF0, 0x80, 0x80, 0x80, 0xF0,
  0xE0, 0x90, 0x90, 0x90, 0xE0,
  0xF0, 0x80, 0xF0, 0x80, 0xF0,
  0xF0, 0x80, 0xF0, 0x80, 0x80]

/-- The defaults of 00_scope.md R8: `Canonical`, `Fault`, the table of 10_state.md R33. -/
def defaultConfig : Config := { pcContract := .canonical, sysPolicy := .fault, glyphRom := defaultGlyphRom }

end Sys2Proof.Machine
end

