-- ==== Sys2Proof/Machine/State.lean ====
section
/-! DEFINITION. The state of the core (10_state.md R20), the reasons a step can stop, and the state after reset (R36). -/

namespace Sys2Proof.Machine

/-- The 4096 bytes of memory as a sparse list of (address, byte): addresses strictly rising, no entry equal to what an
unlisted address reads as (`Memory.wf` in Machine/Ops.lean). -/
abbrev Memory := List Host.Cell

/-- `fb[y][x]`, 32 rows of 64 booleans (10_state.md R28). -/
abbrev Framebuffer := Vector (Vector Bool 64) 32

/-- The causes of 60_exceptions.md R151, each with the information it records. -/
inductive FaultCause where
  /-- Code 1: the fetched word decodes to `Illegal`. -/
  | illegalInstruction (w : Word)
  /-- Code 2: `SYS NNN` under `SYS_POLICY = Fault`. -/
  | unspecifiedOperation (w : Word)
  /-- Code 3: `CALL` with `sp = 16`. -/
  | stackOverflow
  /-- Code 4: `RET` with `sp = 0`. -/
  | stackUnderflow
  /-- Code 5: a fetch or data access at an address at or above 4096. -/
  | memoryBounds (addr : Nat)
  /-- Code 6: `SKP` or `SKNP` with a value at or above 16. -/
  | keyIndexRange (vx : Byte)
deriving DecidableEq, Repr

/-- The `info` entry of a fault record (60_exceptions.md R151, column info). -/
inductive FaultInfo where
  /-- No information: the stack faults. -/
  | none
  /-- An instruction word. -/
  | word (w : Word)
  /-- A memory address. -/
  | address (addr : Nat)
  /-- A register's value. -/
  | value (b : Byte)
deriving DecidableEq, Repr

/-- The fault record `{code, pc, word, info}` of 60_exceptions.md R156. `cause` stands for both `code` and `info`, which
`FaultRecord.code` and `FaultRecord.info` read from it (notes/assumptions/6.md). -/
structure FaultRecord where
  cause : FaultCause
  /-- The address of the step's fetch. -/
  pc    : Word
  /-- The fetched word, none for a fetch fault. -/
  word  : Option Word
deriving DecidableEq, Repr

/-- The state of the core: the tuple of 10_state.md R20, then the model's own two fields. -/
structure State where
  /-- `mem` (R32). -/
  mem    : Memory
  /-- `x[0]` .. `x[15]`, the registers `V0` .. `VF` (R21). -/
  v      : Vector Byte 16
  /-- The index register (R24). -/
  I      : Word
  /-- The program counter (R25). -/
  pc     : Word
  /-- The return stack (R26). -/
  stack  : Vector Word 16
  /-- The stack pointer, a count 0..16 (R27). -/
  sp     : Fin 17
  /-- The framebuffer (R28). -/
  fb     : Framebuffer
  /-- The keypad (R29). -/
  key    : Vector Bool 16
  /-- The delay timer (R30). -/
  dt     : Byte
  /-- The sound timer (R30). -/
  st     : Byte
  /-- The fault record (R31). -/
  fault  : Option FaultRecord
  /-- The MODEL's own: the parameters of this machine (00_scope.md R8; notes/assumptions/1.md). -/
  config : Config
  /-- The MODEL's own: the index of the next free draw (notes/assumptions/4.md). -/
  draws  : Nat
deriving DecidableEq, Repr

/-- Why a step stops the machine. -/
inductive Fault where
  /-- Raised by `step` on a machine that has recorded a fault: the step is refused, changes nothing and returns the
  recorded fault (60_exceptions.md R155). Safe: the spec's own behaviour. -/
  | recorded (r : FaultRecord)
deriving DecidableEq, Repr

/-- Why the model gives a step no meaning. -/
inductive Refusal where
  /-- Raised by `exec` for an instruction that has no meaning yet. Safe. -/
  | notModelled (mnemonic : String)
  /-- Raised by `LD Vx, K` with no key pressed under `PC_CONTRACT = ReferenceDouble`: 40_pipeline.md R75 says that a
  model refuses this case. Safe: no behaviour is invented. -/
  | waitKeyReferenceDouble
deriving DecidableEq, Repr

/-- The state after `construct` and `reset` with the default parameters (10_state.md R36, 70_reset_and_hazards.md
R180): nothing listed in memory, so the glyph set at 0x000 to 0x04F and zero elsewhere; pc 0x200; all else zero. -/
def State.reset : State where
  mem    := []
  v      := Vector.replicate 16 0
  I      := 0
  pc     := 0x0200
  stack  := Vector.replicate 16 0
  sp     := 0
  fb     := Vector.replicate 32 (Vector.replicate 64 false)
  key    := Vector.replicate 16 false
  dt     := 0
  st     := 0
  fault  := none
  config := defaultConfig
  draws  := 0

end Sys2Proof.Machine
end

