-- ==== Sys2Proof/Machine/Flags.lean ====
section
/-! DEFINITION. Every flag computation: what the flag register `VF` receives (42_alu.md R100, 10_state.md R22). -/

namespace Sys2Proof.Machine

/-- The value of `VF` for a flag: 1 or 0. -/
def flagByte (f : Bool) : Byte := if f then 1 else 0

/-- Carry out of bit 7 of `a + b` (42_alu.md R107). -/
def carryFlag (a b : Byte) : Bool := decide (256 ≤ a.toNat + b.toNat)

/-- No borrow in `a - b`: `a ≥ b`, equality included (42_alu.md R108, R110). -/
def noBorrowFlag (a b : Byte) : Bool := decide (b.toNat ≤ a.toNat)

/-- The bit a right shift moves out: bit 0 (42_alu.md R109). -/
def shiftedOutRight (a : Byte) : Bool := a.getLsbD 0

/-- The bit a left shift moves out: bit 7 (42_alu.md R111). -/
def shiftedOutLeft (a : Byte) : Bool := a.getLsbD 7

end Sys2Proof.Machine
end

