-- ==== Sys2Proof/Machine/Operands.lean ====
section
/-! DEFINITION. Every operand form: how fields and register values become addresses, digits, sprite bits and screen
coordinates (30_encoding.md R58, 43_index_memory.md R122, R123, 44_display.md R131, R132). -/

namespace Sys2Proof.Machine

/-- `zext_16` of a register's value (00_scope.md R9). -/
def zextByte (b : Byte) : Word := b.setWidth 16

/-- `zext_16` of a 12-bit address field (30_encoding.md R58). -/
def zextAddr (nnn : Addr12) : Word := nnn.setWidth 16

/-- The memory offset of the glyph of a value's low nibble, `5 * (vx & 0xF)` (43_index_memory.md R122). -/
def glyphAddress (vx : Byte) : Word := BitVec.ofNat 16 (5 * (vx.toNat % 16))

/-- The three decimal digits, hundreds first (43_index_memory.md R123). -/
def decimalDigits (vx : Byte) : List Byte :=
  [BitVec.ofNat 8 (vx.toNat / 100), BitVec.ofNat 8 (vx.toNat / 10 % 10), BitVec.ofNat 8 (vx.toNat % 10)]

/-- The bit of a sprite byte that lands on column `c`: bit 7 is column 0 (44_display.md R132). -/
def spriteBit (b : Byte) (c : Nat) : Bool := b.getLsbD (7 - c)

/-- The screen column of sprite column `c`, `(vx + c) mod 64` (44_display.md R131). -/
def screenColumn (vx : Byte) (c : Nat) : Fin 64 := Fin.ofNat 64 (vx.toNat + c)

/-- The screen row of sprite row `r`, `(vy + r) mod 32` (44_display.md R131). -/
def screenRow (vy : Byte) (r : Nat) : Fin 32 := Fin.ofNat 32 (vy.toNat + r)

end Sys2Proof.Machine
end

