-- ==== Sys2Proof/Machine/Ops.lean ====
section
/-! DEFINITION. The named operations over memory, registers, stack, framebuffer, keypad and program counter, and the one
operation that records a fault (20_memory.md, 10_state.md, 40_pipeline.md, 60_exceptions.md). -/

namespace Sys2Proof.Machine

/-! ## Memory (20_memory.md) -/

/-- `MEM_SIZE` (00_scope.md R6). -/
abbrev memSize : Nat := 4096

/-- What an unlisted address reads as: the reset contents, the glyph set at 0x000 to 0x04F and zero elsewhere
(10_state.md R33, R36). -/
def resetByte (a : Nat) : Byte := defaultGlyphRom.toList.getD a 0

/-- The byte at an address of the memory. -/
def Memory.read (m : Memory) (a : Nat) : Byte :=
  match m with
  | [] => resetByte a
  | (k, b) :: rest => if a = k then b else Memory.read rest a

/-- The memory with no entry for an address. -/
def Memory.erase (m : Memory) (a : Nat) : Memory :=
  match m with
  | [] => []
  | (k, b) :: rest => if k = a then Memory.erase rest a else (k, b) :: Memory.erase rest a

/-- The memory with an entry put in its place; `m` has none for that address. -/
def Memory.insert (m : Memory) (a : Nat) (b : Byte) : Memory :=
  match m with
  | [] => [(a, b)]
  | (k, c) :: rest => if a < k then (a, b) :: (k, c) :: rest else (k, c) :: Memory.insert rest a b

/-- The memory with one byte written, in the canonical form: a byte equal to the reset byte is not listed. -/
def Memory.write (m : Memory) (a : Nat) (b : Byte) : Memory :=
  if b = resetByte a then m.erase a else (m.erase a).insert a b

/-- The memory with a list of bytes written from `a` up. -/
def Memory.writeBytes (m : Memory) (a : Nat) (bs : List Byte) : Memory :=
  match bs with
  | [] => m
  | b :: rest => Memory.writeBytes (m.write a b) (a + 1) rest

/-- The canonical form from a lower bound on: addresses at or above `lo`, strictly rising and inside the address space,
no entry equal to its reset byte. -/
def Memory.wfFrom (lo : Nat) (m : Memory) : Bool :=
  match m with
  | [] => true
  | (k, b) :: rest => decide (lo ≤ k) && decide (k < memSize) && b != resetByte k && Memory.wfFrom (k + 1) rest

/-- The canonical form of a memory. -/
def Memory.wf (m : Memory) : Bool := Memory.wfFrom 0 m

/-- `MemRead(addr, 1)`: the byte, or `MemoryBounds(addr)` at or above 4096 (00_scope.md R12, 20_memory.md R43). -/
def memRead (m : Memory) (a : Nat) : Except FaultCause Byte :=
  if a < memSize then .ok (m.read a) else .error (.memoryBounds a)

/-- `MemWrite(addr, 1, b)`: the memory after it, or `MemoryBounds(addr)` at or above 4096 (00_scope.md R12, R43). -/
def memWrite (m : Memory) (a : Nat) (b : Byte) : Except FaultCause Memory :=
  if a < memSize then .ok (m.write a b) else .error (.memoryBounds a)

/-- `MemRead` of `n` bytes from `a` up, in increasing address order (43_index_memory.md, header). -/
def readBlock (m : Memory) (a : Nat) (n : Nat) : Except FaultCause (List Byte) :=
  match n with
  | 0 => .ok []
  | n + 1 =>
    match memRead m a with
    | .error c => .error c
    | .ok b =>
      match readBlock m (a + 1) n with
      | .error c => .error c
      | .ok bs => .ok (b :: bs)

/-- `MemWrite` of a list of bytes from `a` up, in increasing address order (43_index_memory.md, header). -/
def writeBlock (m : Memory) (a : Nat) (bs : List Byte) : Except FaultCause Memory :=
  match bs with
  | [] => .ok m
  | b :: rest =>
    match memWrite m a b with
    | .error c => .error c
    | .ok m' => writeBlock m' (a + 1) rest

/-! ## Registers (10_state.md R21 to R23) -/

/-- `x[r]`. -/
def State.reg (s : State) (r : RegIdx) : Byte := s.v.get r

/-- `x[r] <- b`. -/
def State.setReg (s : State) (r : RegIdx) (b : Byte) : State := { s with v := s.v.set r.val b r.isLt }

/-- `x[0xF] <- 1` or `0`: the write of the flag register (10_state.md R22). -/
def State.setFlag (s : State) (f : Bool) : State := s.setReg 0xF (flagByte f)

/-- `x[0]` to `x[X]` as a list. -/
def State.regsUpTo (s : State) (x : RegIdx) : List Byte := s.v.toList.take (x.val + 1)

/-- Registers from `k` up written with a list of bytes, in increasing order; the list ends where it ends. -/
def writeRegs (v : Vector Byte 16) (k : Nat) (bs : List Byte) : Vector Byte 16 :=
  match bs with
  | [] => v
  | b :: rest => writeRegs (v.setIfInBounds k b) (k + 1) rest

/-- `x[0]`, `x[1]`, … written with a list of bytes (43_index_memory.md R125). -/
def State.loadRegsFrom (s : State) (bs : List Byte) : State := { s with v := writeRegs s.v 0 bs }

/-! ## Program counter (40_pipeline.md R74, R75) -/

/-- The final pc for the canonical final pc `p`: `p` itself (R74), or 2 more under ReferenceDouble (R75). -/
def finalPc (c : PcContract) (p : Word) : Word :=
  match c with
  | .canonical => p
  | .referenceDouble => p + 2

/-- `pc <- p`, for the canonical final pc `p`. -/
def State.goto (s : State) (p : Word) : State := { s with pc := finalPc s.config.pcContract p }

/-- `pc <- a +16 2`. -/
def State.advance (s : State) : State := s.goto (s.pc + 2)

/-- `pc <- a +16 4` if the condition holds, else `pc <- a +16 2` (41_control.md R89). -/
def State.skipIf (s : State) (cond : Bool) : State := s.goto (if cond then s.pc + 4 else s.pc + 2)

/-! ## Stack (10_state.md R26, R27) -/

/-- `stack[sp] <- w; sp <- sp + 1`, or `StackOverflow` at `sp = 16`. -/
def State.push (s : State) (w : Word) : Except FaultCause State :=
  if h : s.sp.val < 16 then
    .ok { s with stack := s.stack.set s.sp.val w h, sp := ⟨s.sp.val + 1, Nat.succ_lt_succ h⟩ }
  else .error .stackOverflow

/-- `sp <- sp - 1; result = stack[sp]`, or `StackUnderflow` at `sp = 0`. The popped cell keeps its value. -/
def State.pop (s : State) : Except FaultCause (Word × State) :=
  if h : s.sp.val = 0 then .error .stackUnderflow
  else
    .ok (s.stack.get ⟨s.sp.val - 1, by have := s.sp.isLt; omega⟩,
      { s with sp := ⟨s.sp.val - 1, by have := s.sp.isLt; omega⟩ })

/-! ## Framebuffer (10_state.md R28, 44_display.md) -/

/-- `fb[y][x]`. -/
def Framebuffer.pixel (fb : Framebuffer) (x : Fin 64) (y : Fin 32) : Bool := (fb.get y).get x

/-- `fb[y][x] <- not fb[y][x]`. -/
def Framebuffer.toggle (fb : Framebuffer) (x : Fin 64) (y : Fin 32) : Framebuffer :=
  fb.set y.val ((fb.get y).set x.val (!fb.pixel x y) x.isLt) y.isLt

/-- Every cell false (44_display.md R130). -/
def Framebuffer.clear : Framebuffer := Vector.replicate 32 (Vector.replicate 64 false)

/-- One sprite bit XORed onto a cell: if it is set, the collision is noted where the cell was set, and the cell is
toggled (44_display.md R131, inner loop). -/
def xorBit (bit : Bool) (x : Fin 64) (y : Fin 32) (d : Framebuffer × Bool) : Framebuffer × Bool :=
  if bit then (d.1.toggle x y, d.2 || d.1.pixel x y) else d

/-- The columns `c` to 7 of one sprite row, `n` of them left (44_display.md R131, loop over `c`). -/
def xorColumns (vx vy : Byte) (r : Nat) (b : Byte) (c n : Nat) (d : Framebuffer × Bool) : Framebuffer × Bool :=
  match n with
  | 0 => d
  | n + 1 => xorColumns vx vy r b (c + 1) n (xorBit (spriteBit b c) (screenColumn vx c) (screenRow vy r) d)

/-- The sprite rows from row `r` on (44_display.md R131, loop over `r`): the framebuffer and the collision. -/
def xorRows (vx vy : Byte) (r : Nat) (rows : List Byte) (d : Framebuffer × Bool) : Framebuffer × Bool :=
  match rows with
  | [] => d
  | b :: rest => xorRows vx vy (r + 1) rest (xorColumns vx vy r b 0 8 d)

/-! ## Keypad (10_state.md R29) -/

/-- `key[k]`. -/
def State.keyAt (s : State) (k : Fin 16) : Bool := s.key.get k

/-- Some keypad cell is true (45_keys_timers.md R145). -/
def State.anyKey (s : State) : Bool := s.key.toList.any id

/-- `key[vx]`, or `KeyIndexRange(vx)` for a value at or above 16 (45_keys_timers.md R140). -/
def State.keyOf (s : State) (vx : Byte) : Except FaultCause Bool :=
  if h : vx.toNat < 16 then .ok (s.keyAt ⟨vx.toNat, h⟩) else .error (.keyIndexRange vx)

/-! ## Faults (60_exceptions.md) -/

/-- The code of a cause (60_exceptions.md R151). -/
def FaultCause.code (c : FaultCause) : Nat :=
  match c with
  | .illegalInstruction _ => 1
  | .unspecifiedOperation _ => 2
  | .stackOverflow => 3
  | .stackUnderflow => 4
  | .memoryBounds _ => 5
  | .keyIndexRange _ => 6

/-- The information a cause records (60_exceptions.md R151). -/
def FaultCause.info (c : FaultCause) : FaultInfo :=
  match c with
  | .illegalInstruction w => .word w
  | .unspecifiedOperation w => .word w
  | .stackOverflow => .none
  | .stackUnderflow => .none
  | .memoryBounds a => .address a
  | .keyIndexRange vx => .value vx

/-- The `code` entry of a record (60_exceptions.md R156). -/
def FaultRecord.code (r : FaultRecord) : Nat := r.cause.code

/-- The `info` entry of a record (60_exceptions.md R156). -/
def FaultRecord.info (r : FaultRecord) : FaultInfo := r.cause.info

/-- What a faulting step does, and all it does: `fault <- {code, pc: a, word, info}`; `pc` stays `a`
(60_exceptions.md R154, R156). There is no return from it (R157). -/
def raise (c : FaultCause) (word : Option Word) (s : State) : State :=
  { s with fault := some { cause := c, pc := s.pc, word := word } }

/-- The outcome of an instruction that has computed a state or met a fault: the state, or the state BEFORE the step with
the fault recorded, so that every write of the step is discarded (00_scope.md R13). The word is the instruction's own. -/
def finish (i : Instr) (s : State) (r : Except FaultCause State) : Host.Outcome State Fault Refusal :=
  match r with
  | .ok t => .next t
  | .error c => .next (raise c (some (encode i)) s)

/-- What the step command answers on a machine that has recorded a fault (60_exceptions.md R155). -/
def refuseStep (r : FaultRecord) : Host.Outcome State Fault Refusal := .fault (.recorded r)

/-! ## Fetch (40_pipeline.md R71) -/

/-- The two byte reads at `a = pc` and `a + 1`, the lower first, and their word. -/
def fetch (s : State) : Except FaultCause Word :=
  match memRead s.mem s.pc.toNat with
  | .error c => .error c
  | .ok hi =>
    match memRead s.mem (s.pc.toNat + 1) with
    | .error c => .error c
    | .ok lo => .ok (wordOfBytes hi lo)

/-- Decoding of a fetched word in a step: the instruction, or the cause `IllegalInstruction(w)` (40_pipeline.md R72). -/
def decodeFetched (w : Word) : Except FaultCause Instr :=
  match decodeWord w with
  | .ok i => .ok i
  | .error _ => .error (.illegalInstruction w)

/-- `PROGRAM_BASE`, where the host's load command places a program and where pc stands at reset (00_scope.md R7). -/
abbrev programBase : Nat := 0x200

/-- The state with a word placed where its next step fetches: at `pc`. What a fetch needs is seen to: a recorded fault
is cleared, and a pc from which no word can be fetched is set to the program base (notes/assumptions/10.md). -/
def placeWord (s : State) (w : Word) : State :=
  let a := if s.pc.toNat + 1 < memSize then s.pc else BitVec.ofNat 16 programBase
  { s with mem := s.mem.writeBytes a.toNat [hiByte w, loByte w], pc := a, fault := none }

end Sys2Proof.Machine
end

