-- ==== Sys2Proof/Machine/Alu.lean ====
section
/-! DEFINITION. The 8-bit ALU and the random draw: the meanings of 42_alu.md. Sources are read from the state before the
step, and the flag is written after the result (R100, 10_state.md R23). -/

namespace Sys2Proof.Machine

/-- A result written to `Vx`, `VF` not touched otherwise (R101 to R106). -/
def writeResult (x : RegIdx) (result : Byte) (s : State) : Host.Outcome State Fault Refusal :=
  .next (s.setReg x result).advance

/-- A result written to `Vx`, then the flag to `VF` (R107 to R111). -/
def writeResultAndFlag (x : RegIdx) (result : Byte) (flag : Bool) (s : State) : Host.Outcome State Fault Refusal :=
  .next ((s.setReg x result).setFlag flag).advance

/-- `LD Vx, NN` (R101). -/
def execLdImm (x : RegIdx) (nn : Byte) (s : State) : Host.Outcome State Fault Refusal := writeResult x nn s

/-- `ADD Vx, NN` (R102): no flag. -/
def execAddImm (x : RegIdx) (nn : Byte) (s : State) : Host.Outcome State Fault Refusal :=
  writeResult x (s.reg x + nn) s

/-- `LD Vx, Vy` (R103). -/
def execLdReg (x y : RegIdx) (s : State) : Host.Outcome State Fault Refusal := writeResult x (s.reg y) s

/-- `OR Vx, Vy` (R104). -/
def execOrReg (x y : RegIdx) (s : State) : Host.Outcome State Fault Refusal :=
  writeResult x (s.reg x ||| s.reg y) s

/-- `AND Vx, Vy` (R105). -/
def execAndReg (x y : RegIdx) (s : State) : Host.Outcome State Fault Refusal :=
  writeResult x (s.reg x &&& s.reg y) s

/-- `XOR Vx, Vy` (R106). -/
def execXorReg (x y : RegIdx) (s : State) : Host.Outcome State Fault Refusal :=
  writeResult x (s.reg x ^^^ s.reg y) s

/-- `ADD Vx, Vy` (R107): flag is the carry. -/
def execAddReg (x y : RegIdx) (s : State) : Host.Outcome State Fault Refusal :=
  writeResultAndFlag x (s.reg x + s.reg y) (carryFlag (s.reg x) (s.reg y)) s

/-- `SUB Vx, Vy` (R108): flag is no borrow of `vx - vy`. -/
def execSub (x y : RegIdx) (s : State) : Host.Outcome State Fault Refusal :=
  writeResultAndFlag x (s.reg x - s.reg y) (noBorrowFlag (s.reg x) (s.reg y)) s

/-- `SHR Vx` (R109): `Vy` is neither read nor written. -/
def execShr (x _y : RegIdx) (s : State) : Host.Outcome State Fault Refusal :=
  writeResultAndFlag x (s.reg x >>> 1) (shiftedOutRight (s.reg x)) s

/-- `SUBN Vx, Vy` (R110): flag is no borrow of `vy - vx`. -/
def execSubn (x y : RegIdx) (s : State) : Host.Outcome State Fault Refusal :=
  writeResultAndFlag x (s.reg y - s.reg x) (noBorrowFlag (s.reg y) (s.reg x)) s

/-- `SHL Vx` (R111): `Vy` is neither read nor written. -/
def execShl (x _y : RegIdx) (s : State) : Host.Outcome State Fault Refusal :=
  writeResultAndFlag x (s.reg x <<< 1) (shiftedOutLeft (s.reg x)) s

/-- `RND Vx, NN` (R112): the draw is the free byte at the draw counter, which moves on (notes/assumptions/4.md). -/
def execRnd (x : RegIdx) (nn : Byte) (s : State) : Host.Outcome State Fault Refusal :=
  writeResult x (Config.randDraw s.draws &&& nn) { s with draws := s.draws + 1 }

end Sys2Proof.Machine
end

