-- ==== Sys2Proof/Machine/Control.lean ====
section
/-! DEFINITION. Control transfer: the meanings of 41_control.md. -/

namespace Sys2Proof.Machine

/-- `SYS NNN` (R85): by `SYS_POLICY`, raise `UnspecifiedOperation(w)` or only advance. -/
def execSys (nnn : Addr12) (s : State) : Host.Outcome State Fault Refusal :=
  match s.config.sysPolicy with
  | .fault => finish (.sys nnn) s (.error (.unspecifiedOperation (encode (.sys nnn))))
  | .noOp => finish (.sys nnn) s (.ok s.advance)

/-- `RET` (R86): pop the pc, or raise `StackUnderflow`. -/
def execRet (s : State) : Host.Outcome State Fault Refusal :=
  finish .ret s <|
    match s.pop with
    | .error c => .error c
    | .ok (target, t) => .ok (t.goto target)

/-- `JP NNN` (R87). -/
def execJp (nnn : Addr12) (s : State) : Host.Outcome State Fault Refusal := .next (s.goto (zextAddr nnn))

/-- `CALL NNN` (R88): push `a +16 2` in both contracts (40_pipeline.md R75), or raise `StackOverflow`. -/
def execCall (nnn : Addr12) (s : State) : Host.Outcome State Fault Refusal :=
  finish (.call nnn) s <|
    match s.push (s.pc + 2) with
    | .error c => .error c
    | .ok t => .ok (t.goto (zextAddr nnn))

/-- `SE Vx, NN` (R89). -/
def execSeImm (x : RegIdx) (nn : Byte) (s : State) : Host.Outcome State Fault Refusal :=
  .next (s.skipIf (s.reg x == nn))

/-- `SNE Vx, NN` (R90). -/
def execSneImm (x : RegIdx) (nn : Byte) (s : State) : Host.Outcome State Fault Refusal :=
  .next (s.skipIf (s.reg x != nn))

/-- `SE Vx, Vy` (R91). -/
def execSeReg (x y : RegIdx) (s : State) : Host.Outcome State Fault Refusal :=
  .next (s.skipIf (s.reg x == s.reg y))

/-- `SNE Vx, Vy` (R92). -/
def execSneReg (x y : RegIdx) (s : State) : Host.Outcome State Fault Refusal :=
  .next (s.skipIf (s.reg x != s.reg y))

/-- `JP V0, NNN` (R93): the sum is not reduced modulo 4096. -/
def execJpV0 (nnn : Addr12) (s : State) : Host.Outcome State Fault Refusal :=
  .next (s.goto (zextAddr nnn + zextByte (s.reg 0)))

end Sys2Proof.Machine
end

