-- ==== Sys2Proof/Machine/Display.lean ====
section
/-! DEFINITION. The framebuffer XOR engine: the meanings of 44_display.md. -/

namespace Sys2Proof.Machine

/-- `CLS` (R130). -/
def execCls (s : State) : Host.Outcome State Fault Refusal := .next { s with fb := Framebuffer.clear }.advance

/-- `DRW Vx, Vy, N` (R131): read `N` bytes at `I`, XOR them at (`Vx`, `Vy`), then write the collision to `VF`. -/
def execDrw (x y : RegIdx) (n : Fin 16) (s : State) : Host.Outcome State Fault Refusal :=
  finish (.drw x y n) s <|
    match readBlock s.mem s.I.toNat n.val with
    | .error c => .error c
    | .ok rows =>
      let d := xorRows (s.reg x) (s.reg y) 0 rows (s.fb, false)
      .ok ({ s with fb := d.1 }.setFlag d.2).advance

end Sys2Proof.Machine
end

