-- ==== Sys2Proof/Machine/IndexMemory.lean ====
section
/-! DEFINITION. The index register, loads and stores: the meanings of 43_index_memory.md. -/

namespace Sys2Proof.Machine

/-- `I <- w; pc <- a +16 2`. -/
def writeIndex (w : Word) (s : State) : Host.Outcome State Fault Refusal := .next { s with I := w }.advance

/-- `MemWrite` of bytes from `I` up, then `pc <- a +16 2`; or the fault of the lowest out-of-range address. -/
def storeAtIndex (i : Instr) (bs : List Byte) (s : State) : Host.Outcome State Fault Refusal :=
  finish i s <|
    match writeBlock s.mem s.I.toNat bs with
    | .error c => .error c
    | .ok m => .ok { s with mem := m }.advance

/-- `LD I, NNN` (R120). -/
def execLdI (nnn : Addr12) (s : State) : Host.Outcome State Fault Refusal := writeIndex (zextAddr nnn) s

/-- `ADD I, Vx` (R121): 16-bit wrap, no flag. -/
def execAddI (x : RegIdx) (s : State) : Host.Outcome State Fault Refusal := writeIndex (s.I + zextByte (s.reg x)) s

/-- `LD F, Vx` (R122). -/
def execLdF (x : RegIdx) (s : State) : Host.Outcome State Fault Refusal := writeIndex (glyphAddress (s.reg x)) s

/-- `LD B, Vx` (R123). -/
def execLdB (x : RegIdx) (s : State) : Host.Outcome State Fault Refusal :=
  storeAtIndex (.ldB x) (decimalDigits (s.reg x)) s

/-- `LD [I], Vx` (R124): `V0` to `Vx`; `I` is unchanged. -/
def execStoreRegs (x : RegIdx) (s : State) : Host.Outcome State Fault Refusal :=
  storeAtIndex (.storeRegs x) (s.regsUpTo x) s

/-- `LD Vx, [I]` (R125): `V0` to `Vx`; `I` is unchanged. -/
def execLoadRegs (x : RegIdx) (s : State) : Host.Outcome State Fault Refusal :=
  finish (.loadRegs x) s <|
    match readBlock s.mem s.I.toNat (x.val + 1) with
    | .error c => .error c
    | .ok bs => .ok (s.loadRegsFrom bs).advance

end Sys2Proof.Machine
end

