-- ==== Sys2Proof/Machine/KeysTimers.lean ====
section
/-! DEFINITION. Keypad and timer operations: the meanings of 45_keys_timers.md. -/

namespace Sys2Proof.Machine

/-- A skip on the key that `Vx` names being at the given level, or `KeyIndexRange(vx)` (R140, R141). -/
def skipOnKey (i : Instr) (x : RegIdx) (level : Bool) (s : State) : Host.Outcome State Fault Refusal :=
  finish i s <|
    match s.keyOf (s.reg x) with
    | .error c => .error c
    | .ok k => .ok (s.skipIf (k == level))

/-- `SKP Vx` (R140). -/
def execSkp (x : RegIdx) (s : State) : Host.Outcome State Fault Refusal := skipOnKey (.skp x) x true s

/-- `SKNP Vx` (R141). -/
def execSknp (x : RegIdx) (s : State) : Host.Outcome State Fault Refusal := skipOnKey (.sknp x) x false s

/-- `LD Vx, DT` (R142). -/
def execLdVxDt (x : RegIdx) (s : State) : Host.Outcome State Fault Refusal := .next (s.setReg x s.dt).advance

/-- `LD DT, Vx` (R143). -/
def execLdDtVx (x : RegIdx) (s : State) : Host.Outcome State Fault Refusal := .next { s with dt := s.reg x }.advance

/-- `LD ST, Vx` (R144). -/
def execLdStVx (x : RegIdx) (s : State) : Host.Outcome State Fault Refusal := .next { s with st := s.reg x }.advance

/-- `LD Vx, K` (R145): with a key pressed `Vx` receives the free draw and the step advances; with none, `pc` stays at `a`
and the same word runs again. Under ReferenceDouble the no-key case is refused (40_pipeline.md R75). -/
def execLdVxK (x : RegIdx) (s : State) : Host.Outcome State Fault Refusal :=
  if s.anyKey then
    .next ({ s with draws := s.draws + 1 }.setReg x (Config.waitKeyDraw s.draws)).advance
  else
    match s.config.pcContract with
    | .canonical => .next (s.goto s.pc)
    | .referenceDouble => .refused .waitKeyReferenceDouble

end Sys2Proof.Machine
end

