-- ==== Sys2Proof/Machine/Step.lean ====
section
/-! DEFINITION. One step command: fetch, decode, execute as one transaction (40_pipeline.md R70 to R73). -/

namespace Sys2Proof.Machine

/-- Execute exactly one instruction (40_pipeline.md R70). A machine with a recorded fault refuses and returns the record
(60_exceptions.md R155); a fault of fetch or decode is recorded with the fetched word, none for a fetch fault (R156). -/
def step (s : State) : Host.Outcome State Fault Refusal :=
  match s.fault with
  | some r => refuseStep r
  | none =>
    match fetch s with
    | .error c => .next (raise c none s)
    | .ok w =>
      match decodeFetched w with
      | .error c => .next (raise c (some w) s)
      | .ok i => exec i s

/-- `s` with a table row's word stored where `step` fetches its next instruction, so that the next step runs it
(notes/assumptions/10.md). -/
def State.withFetchWord (s : State) (nbits w : Nat) : State := placeWord s (tableWord nbits w)

end Sys2Proof.Machine
end

