-- ==== Sys2Proof/Machine/Commands.lean ====
section
/-! DEFINITION. The host interface: every command of 60_exceptions.md R160 with its reply, and a sequence of commands as
the input of a run (R168). `step` (Machine/Step.lean) is the one command that executes an instruction (R161). -/

namespace Sys2Proof.Machine

/-- A command the host issues to a machine (60_exceptions.md R160). -/
inductive Command where
  /-- Re-initialise the machine (70_reset_and_hazards.md R181). -/
  | reset
  /-- Place a program image at 0x200 (60_exceptions.md R166). -/
  | load (image : List Byte)
  /-- Execute one instruction (40_pipeline.md R70). -/
  | step
  /-- One tick of the timer clock (60_exceptions.md R162). -/
  | timerTick
  /-- Press or release a key; any index may be given (60_exceptions.md R164). -/
  | setKey (index : Nat) (pressed : Bool)
  /-- Read the framebuffer (60_exceptions.md R165). -/
  | readDisplay
deriving DecidableEq, Repr

/-- The result of a command (60_exceptions.md R160, last column). -/
inductive Reply where
  /-- No result: `reset`, `set_key`. -/
  | none
  /-- `ok`: a step that raised nothing, a load that fitted. -/
  | ok
  /-- `LoadTooLarge` (60_exceptions.md R166). -/
  | loadTooLarge
  /-- The fault a step raised, or the recorded fault of a refused step (40_pipeline.md R70). -/
  | fault (r : FaultRecord)
  /-- The model gives the step no meaning (40_pipeline.md R75). -/
  | refused (r : Refusal)
  /-- The sound-stop edge of a timer tick (60_exceptions.md R163). -/
  | edge (e : Bool)
  /-- The 2048 cells of the framebuffer (60_exceptions.md R165). -/
  | display (cells : List Bool)
deriving DecidableEq, Repr

/-- The state `construct` creates, for the parameters of a machine: the glyph set at 0x000, all else zero, pc 0x200
(70_reset_and_hazards.md R180, 10_state.md R36). -/
def construct (c : Config) : State :=
  { State.reset with mem := State.reset.mem.writeBytes 0 c.glyphRom.toList, config := c }

/-- `reset`: the whole state is replaced by the one `construct` creates (70_reset_and_hazards.md R181). The parameters
stay, and so does the draw counter, so that draws after a reset are fresh (notes/assumptions/12.md). -/
def resetMachine (s : State) : State := { construct s.config with draws := s.draws }

/-- `MAX_PROGRAM` (00_scope.md R7). -/
abbrev maxProgram : Nat := 3584

/-- `load(bytes)` (60_exceptions.md R166). -/
def loadProgram (image : List Byte) (s : State) : State × Reply :=
  if image.length ≤ maxProgram then ({ s with mem := s.mem.writeBytes programBase image }, .ok)
  else (s, .loadTooLarge)

/-- One decrement toward zero, floor at 0 (60_exceptions.md R162). -/
def decrement (b : Byte) : Byte := if b = 0 then 0 else b - 1

/-- A timer tick and its edge, `true` exactly when the sound timer goes from 1 to 0 (60_exceptions.md R162, R163). -/
def timerTick (s : State) : State × Bool :=
  ({ s with dt := decrement s.dt, st := decrement s.st }, s.st == 1)

/-- `set_key(i, pressed)`; an index outside 0..15 is ignored (60_exceptions.md R164). -/
def setKey (index : Nat) (pressed : Bool) (s : State) : State :=
  { s with key := s.key.setIfInBounds index pressed }

/-- `read_display()`: the framebuffer as a flat row-major sequence (60_exceptions.md R165). -/
def readDisplay (s : State) : List Bool := (s.fb.toList.map Vector.toList).flatten

/-- The step command with its reply: `ok`, the fault it raised, or the recorded fault on a machine that refuses it
(40_pipeline.md R70). DESIGN CHOICE: a step that the model refuses (`LD Vx, K` with no key under ReferenceDouble, R75)
leaves the state as it was, and a run of commands goes on from there; the spec gives no state after it
(notes/assumptions/14.md). -/
def stepCommand (s : State) : State × Reply :=
  match step s with
  | .next t =>
    match t.fault with
    | some r => (t, .fault r)
    | none => (t, .ok)
  | .fault (.recorded r) => (s, .fault r)
  | .refused r => (s, .refused r)

/-- One command, executed to completion (60_exceptions.md R160): the state after it and its reply. -/
def runCommand (c : Command) (s : State) : State × Reply :=
  match c with
  | .reset => (resetMachine s, .none)
  | .load image => loadProgram image s
  | .step => stepCommand s
  | .timerTick => ((timerTick s).1, .edge (timerTick s).2)
  | .setKey index pressed => (setKey index pressed s, .none)
  | .readDisplay => (s, .display (readDisplay s))

/-- A sequence of commands, one at a time in the host's order (60_exceptions.md R168): the state after the last, and
the replies in order. -/
def runCommands (cs : List Command) (s : State) : State × List Reply :=
  match cs with
  | [] => (s, [])
  | c :: rest =>
    let r := runCommand c s
    let q := runCommands rest r.1
    (q.1, r.2 :: q.2)

end Sys2Proof.Machine
end

