-- ==== Sys2Proof/Safety.lean ====
section
/-! DEFINITION. The vocabulary of the claims: the parts of a state, what a step may change, a safe run, and the
invariants of the machine. -/

namespace Sys2Proof.Machine

/-! ## Parts of a state and frames -/

/-- One piece of state: every cell of the tuple of 10_state.md R20, and the model's own two fields. -/
inductive Part where
  | mem (a : Nat)
  | reg (r : RegIdx)
  | index
  | pc
  | stackCell (k : Fin 16)
  | sp
  | pixel (x : Fin 64) (y : Fin 32)
  | key (k : Fin 16)
  | delayTimer
  | soundTimer
  | fault
  | config
  | draws
deriving DecidableEq, Repr

/-- A part reads the same in two states. -/
def Part.Same (p : Part) (s t : State) : Prop :=
  match p with
  | .mem a => t.mem.read a = s.mem.read a
  | .reg r => t.reg r = s.reg r
  | .index => t.I = s.I
  | .pc => t.pc = s.pc
  | .stackCell k => t.stack.get k = s.stack.get k
  | .sp => t.sp = s.sp
  | .pixel x y => t.fb.pixel x y = s.fb.pixel x y
  | .key k => t.keyAt k = s.keyAt k
  | .delayTimer => t.dt = s.dt
  | .soundTimer => t.st = s.st
  | .fault => t.fault = s.fault
  | .config => t.config = s.config
  | .draws => t.draws = s.draws

/-- The frame: every part of the state that is not among `written` reads in `t` as in `s`. -/
def OnlyChanges (written : Part → Prop) (s t : State) : Prop := ∀ p, ¬ written p → p.Same s t

/-- The parts of a state that an instruction may write, the program counter among them: the table of 10_state.md R38,
and the draw counter where a draw is taken. -/
def MayWrite (i : Instr) (s : State) (p : Part) : Prop :=
  p = .pc ∨
  match i with
  | .sys _ => False
  | .cls => ∃ x y, p = .pixel x y
  | .ret => p = .sp
  | .jp _ => False
  | .call _ => p = .sp ∨ ∃ k, p = .stackCell k ∧ k.val = s.sp.val
  | .seImm _ _ => False
  | .sneImm _ _ => False
  | .seReg _ _ => False
  | .ldImm x _ => p = .reg x
  | .addImm x _ => p = .reg x
  | .ldReg x _ => p = .reg x
  | .orReg x _ => p = .reg x
  | .andReg x _ => p = .reg x
  | .xorReg x _ => p = .reg x
  | .addReg x _ => p = .reg x ∨ p = .reg 0xF
  | .sub x _ => p = .reg x ∨ p = .reg 0xF
  | .shr x _ => p = .reg x ∨ p = .reg 0xF
  | .subn x _ => p = .reg x ∨ p = .reg 0xF
  | .shl x _ => p = .reg x ∨ p = .reg 0xF
  | .sneReg _ _ => False
  | .ldI _ => p = .index
  | .jpV0 _ => False
  | .rnd x _ => p = .reg x ∨ p = .draws
  | .drw _ _ _ => p = .reg 0xF ∨ ∃ x y, p = .pixel x y
  | .skp _ => False
  | .sknp _ => False
  | .ldVxDt x => p = .reg x
  | .ldVxK x => p = .reg x ∨ p = .draws
  | .ldDtVx _ => p = .delayTimer
  | .ldStVx _ => p = .soundTimer
  | .addI _ => p = .index
  | .ldF _ => p = .index
  | .ldB _ => ∃ k, k < 3 ∧ p = .mem (s.I.toNat + k)
  | .storeRegs x => ∃ k, k ≤ x.val ∧ p = .mem (s.I.toNat + k)
  | .loadRegs x => ∃ r : RegIdx, r ≤ x ∧ p = .reg r

/-! ## Outcomes of an instruction -/

/-- The machine advances its pc by the canonical contract (40_pipeline.md R74), the default (00_scope.md R8). -/
abbrev State.Canonical (s : State) : Prop := s.config.pcContract = .canonical

/-- The instruction COMPLETES: `exec` answers a next state, which has the given properties and differs from the state
before in the given parts only. -/
def CompletesWith (i : Instr) (s : State) (written : Part → Prop) (post : State → Prop) : Prop :=
  ∃ t, exec i s = .next t ∧ post t ∧ OnlyChanges written s t

/-- The instruction RAISES a fault: `exec` answers a next state that differs from the state before in the fault record
only, which holds the cause, the instruction's address and its word (60_exceptions.md R154, R156). -/
def Raises (i : Instr) (s : State) (c : FaultCause) : Prop :=
  ∃ t, exec i s = .next t ∧ t.fault = some { cause := c, pc := s.pc, word := some (encode i) } ∧
    OnlyChanges (· = .fault) s t

/-- The lowest of the `n` addresses from `I` that lies at or above 4096 is the one a cause reports
(43_index_memory.md, header; 60_exceptions.md R153). -/
def FirstOutOfRange (s : State) (n : Nat) (c : FaultCause) : Prop :=
  ∃ k, k < n ∧ 4096 ≤ s.I.toNat + k ∧ (∀ j, j < k → s.I.toNat + j < 4096) ∧ c = .memoryBounds (s.I.toNat + k)

/-- The causes an instruction raises and when: the table of 60_exceptions.md R152. -/
def RaisesIn (i : Instr) (s : State) (c : FaultCause) : Prop :=
  match i with
  | .sys _ => s.config.sysPolicy = .fault ∧ c = .unspecifiedOperation (encode i)
  | .cls => False
  | .ret => s.sp.val = 0 ∧ c = .stackUnderflow
  | .jp _ => False
  | .call _ => s.sp.val = 16 ∧ c = .stackOverflow
  | .seImm _ _ => False
  | .sneImm _ _ => False
  | .seReg _ _ => False
  | .ldImm _ _ => False
  | .addImm _ _ => False
  | .ldReg _ _ => False
  | .orReg _ _ => False
  | .andReg _ _ => False
  | .xorReg _ _ => False
  | .addReg _ _ => False
  | .sub _ _ => False
  | .shr _ _ => False
  | .subn _ _ => False
  | .shl _ _ => False
  | .sneReg _ _ => False
  | .ldI _ => False
  | .jpV0 _ => False
  | .rnd _ _ => False
  | .drw _ _ n => FirstOutOfRange s n.val c
  | .skp x => 16 ≤ (s.reg x).toNat ∧ c = .keyIndexRange (s.reg x)
  | .sknp x => 16 ≤ (s.reg x).toNat ∧ c = .keyIndexRange (s.reg x)
  | .ldVxDt _ => False
  | .ldVxK _ => False
  | .ldDtVx _ => False
  | .ldStVx _ => False
  | .addI _ => False
  | .ldF _ => False
  | .ldB _ => FirstOutOfRange s 3 c
  | .storeRegs x => FirstOutOfRange s (x.val + 1) c
  | .loadRegs x => FirstOutOfRange s (x.val + 1) c

/-- A function applied to the state of a next outcome; a fault or a refusal stays. -/
def mapNext (f : State → State) (o : Host.Outcome State Fault Refusal) : Host.Outcome State Fault Refusal :=
  match o with
  | .next t => .next (f t)
  | .fault r => .fault r
  | .refused r => .refused r

/-- A sprite of `n` rows at the bytes from `I`, drawn at the values of `Vx` and `Vy`, has a set bit that lands on the
cell (`px`, `py`) (44_display.md R131, R132, R133). -/
def SpriteHits (s : State) (x y : RegIdx) (n : Nat) (px : Fin 64) (py : Fin 32) : Prop :=
  ∃ r c, r < n ∧ c < 8 ∧ (s.mem.read (s.I.toNat + r)).getLsbD (7 - c) = true ∧
    ((s.reg x).toNat + c) % 64 = px.val ∧ ((s.reg y).toNat + r) % 32 = py.val

/-! ## Encodings -/

/-- A word, given as a number, stands for an instruction. -/
def EncodedAs (w : Nat) (i : Instr) : Prop := decodeWord (BitVec.ofNat 16 w) = .ok i

/-- The name of an instruction in spec/opcode_table.json. -/
def mnemonicOf (i : Instr) : String :=
  match i with
  | .sys _ => "SYS_NNN"
  | .cls => "CLS"
  | .ret => "RET"
  | .jp _ => "JP_NNN"
  | .call _ => "CALL_NNN"
  | .seImm _ _ => "SE_Vx__NN"
  | .sneImm _ _ => "SNE_Vx__NN"
  | .seReg _ _ => "SE_Vx__Vy"
  | .ldImm _ _ => "LD_Vx__NN"
  | .addImm _ _ => "ADD_Vx__NN"
  | .ldReg _ _ => "LD_Vx__Vy"
  | .orReg _ _ => "OR_Vx__Vy"
  | .andReg _ _ => "AND_Vx__Vy"
  | .xorReg _ _ => "XOR_Vx__Vy"
  | .addReg _ _ => "ADD_Vx__Vy"
  | .sub _ _ => "SUB_Vx__Vy"
  | .shr _ _ => "SHR_Vx"
  | .subn _ _ => "SUBN_Vx__Vy"
  | .shl _ _ => "SHL_Vx"
  | .sneReg _ _ => "SNE_Vx__Vy"
  | .ldI _ => "LD_I__NNN"
  | .jpV0 _ => "JP_V0__NNN"
  | .rnd _ _ => "RND_Vx__NN"
  | .drw _ _ _ => "DRW_Vx__Vy__N"
  | .skp _ => "SKP_Vx"
  | .sknp _ => "SKNP_Vx"
  | .ldVxDt _ => "LD_Vx__DT"
  | .ldVxK _ => "LD_Vx__K"
  | .ldDtVx _ => "LD_DT__Vx"
  | .ldStVx _ => "LD_ST__Vx"
  | .addI _ => "ADD_I__Vx"
  | .ldF _ => "LD_F__Vx"
  | .ldB _ => "LD_B__Vx"
  | .storeRegs _ => "LD__I___Vx"
  | .loadRegs _ => "LD_Vx___I"

/-- A row of spec/opcode_table.json: a word `w` with `w & mask = pattern` is an instruction of that name. -/
structure TableRow where
  mnemonic : String
  pattern  : Word
  mask     : Word
deriving DecidableEq, Repr

/-- spec/opcode_table.json, `CLS` and `RET` before `SYS`, whose row says that they match first. -/
def opcodeTable : List TableRow := [
  ⟨"CLS", 0x00E0, 0xFFFF⟩, ⟨"RET", 0x00EE, 0xFFFF⟩, ⟨"SYS_NNN", 0x0000, 0xF000⟩,
  ⟨"JP_NNN", 0x1000, 0xF000⟩, ⟨"CALL_NNN", 0x2000, 0xF000⟩,
  ⟨"SE_Vx__NN", 0x3000, 0xF000⟩, ⟨"SNE_Vx__NN", 0x4000, 0xF000⟩, ⟨"SE_Vx__Vy", 0x5000, 0xF00F⟩,
  ⟨"LD_Vx__NN", 0x6000, 0xF000⟩, ⟨"ADD_Vx__NN", 0x7000, 0xF000⟩] ++ [
  ⟨"LD_Vx__Vy", 0x8000, 0xF00F⟩, ⟨"OR_Vx__Vy", 0x8001, 0xF00F⟩, ⟨"AND_Vx__Vy", 0x8002, 0xF00F⟩,
  ⟨"XOR_Vx__Vy", 0x8003, 0xF00F⟩, ⟨"ADD_Vx__Vy", 0x8004, 0xF00F⟩, ⟨"SUB_Vx__Vy", 0x8005, 0xF00F⟩,
  ⟨"SHR_Vx", 0x8006, 0xF00F⟩, ⟨"SUBN_Vx__Vy", 0x8007, 0xF00F⟩, ⟨"SHL_Vx", 0x800E, 0xF00F⟩,
  ⟨"SNE_Vx__Vy", 0x9000, 0xF00F⟩] ++ [
  ⟨"LD_I__NNN", 0xA000, 0xF000⟩, ⟨"JP_V0__NNN", 0xB000, 0xF000⟩, ⟨"RND_Vx__NN", 0xC000, 0xF000⟩,
  ⟨"DRW_Vx__Vy__N", 0xD000, 0xF000⟩, ⟨"SKP_Vx", 0xE09E, 0xF0FF⟩, ⟨"SKNP_Vx", 0xE0A1, 0xF0FF⟩,
  ⟨"LD_Vx__DT", 0xF007, 0xF0FF⟩, ⟨"LD_Vx__K", 0xF00A, 0xF0FF⟩, ⟨"LD_DT__Vx", 0xF015, 0xF0FF⟩,
  ⟨"LD_ST__Vx", 0xF018, 0xF0FF⟩, ⟨"ADD_I__Vx", 0xF01E, 0xF0FF⟩, ⟨"LD_F__Vx", 0xF029, 0xF0FF⟩,
  ⟨"LD_B__Vx", 0xF033, 0xF0FF⟩, ⟨"LD__I___Vx", 0xF055, 0xF0FF⟩, ⟨"LD_Vx___I", 0xF065, 0xF0FF⟩]

/-- The name of the first row of the table that a word matches. -/
def tableName (w : Word) : Option String :=
  (opcodeTable.find? (fun r => w &&& r.mask == r.pattern)).map TableRow.mnemonic

/-! ## Safe runs and invariants -/

/-- `n` steps of the machine in a row, no other command between them, all run an instruction and none records a
fault. -/
def SafeFor (n : Nat) (s : State) : Prop :=
  match n with
  | 0 => s.fault = none
  | n + 1 => s.fault = none ∧ ∃ t, step s = .next t ∧ SafeFor n t

/-- The largest pc that the contract's sums reach: 0x10FE under Canonical (40_pipeline.md R76), 2 more under
ReferenceDouble (R75). -/
def pcBound (c : PcContract) : Nat :=
  match c with
  | .canonical => 0x10FE
  | .referenceDouble => 0x1100

/-- The pc and the return addresses stay within what the instructions can compute (40_pipeline.md R76, 41_control.md
R86): a pc of at most `pcBound`, stack cells of at most 0x1000. -/
def AddressesBounded (s : State) : Prop :=
  s.pc.toNat ≤ pcBound s.config.pcContract ∧ ∀ k, (s.stack.get k).toNat ≤ 0x1000

/-- A recorded fault is one that a step at this pc raises (60_exceptions.md R151, R156): the record's pc is the state's;
a record without a word is a fetch fault at `pc` or at `pc + 1`; a record with a word is `IllegalInstruction` of that
word, which decodes to none, or a cause that the word's instruction raises in this state. -/
def FaultRecordConsistent (s : State) : Prop :=
  ∀ r, s.fault = some r →
    r.pc = s.pc ∧
    (r.word = none →
      ∃ a, r.cause = .memoryBounds a ∧ 4096 ≤ a ∧ (a = s.pc.toNat ∨ a = s.pc.toNat + 1)) ∧
    (∀ w, r.word = some w →
      (r.cause = .illegalInstruction w ∧ decodeWord w = .error (.illegal w)) ∨
      ∃ i, decodeWord w = .ok i ∧ RaisesIn i s r.cause)

end Sys2Proof.Machine
end

