-- ==== Sys2Proof/Certificates/Slice0/Obligations.lean ====
section
/-! DEFINITION. The statements about the core, for the provers. A rule's final pc is the one of the Canonical contract
(00_scope.md R14, 40_pipeline.md R74), so a statement that names a final pc takes that contract as a premise;
`Obligations.ReferenceDoubleAddsTwo` says what the other contract changes. `CompletesWith` and `Raises` state the frame
as well: every part of the state that they do not name reads as before. The words of `EncodedAs` are those of
30_encoding.md R59, which the spec takes from general knowledge, not from its source (notes/assumptions/8.md): a
statement that holds such a clause is derived. -/

open Sys2Proof Sys2Proof.Machine

/-! ## Encoding and decoding -/

/-- 30_encoding.md R59, R60: the bytes of a well-formed instruction, whatever follows them, decode to it and leave the
rest, with every operand at every value. -/
def Obligations.DecodeOfEncodedBytesReturnsInstruction : Prop :=
  ∀ (i : Instr) (rest : List Byte), i.WellFormed → decode (encodeBytes i ++ rest) = .ok (i, rest)

/-- 30_encoding.md R59, R60: a word that decodes, decodes to a well-formed instruction whose word it is: no bit of it is
dropped. -/
def Obligations.EncodeOfDecodedWordReturnsWord : Prop :=
  ∀ (w : Word) (i : Instr), decodeWord w = .ok i → i.WellFormed ∧ encode i = w

/-- 30_encoding.md R59 and spec/opcode_table.json: a word decodes to the operation of the first row it matches under the
row's mask, and is illegal when it matches none. -/
def Obligations.DecoderAgreesWithOpcodeTable : Prop :=
  ∀ w : Word,
    (∀ i, decodeWord w = .ok i → tableName w = some (mnemonicOf i)) ∧
    (∀ e, decodeWord w = .error e → e = .illegal w ∧ tableName w = none)

/-- 30_encoding.md R61: the illegal words, exhaustively. -/
def Obligations.IllegalWordsAreExactlyThese : Prop :=
  ∀ w : Word, decodeWord w = .error (.illegal w) ↔
    ((w.toNat / 4096 = 5 ∧ w.toNat % 16 ≠ 0) ∨
     (w.toNat / 4096 = 8 ∧ w.toNat % 16 ∈ [0x8, 0x9, 0xA, 0xB, 0xC, 0xD, 0xF]) ∨
     (w.toNat / 4096 = 9 ∧ w.toNat % 16 ≠ 0) ∨
     (w.toNat / 4096 = 0xE ∧ w.toNat % 256 ∉ [0x9E, 0xA1]) ∨
     (w.toNat / 4096 = 0xF ∧
       w.toNat % 256 ∉ [0x07, 0x0A, 0x15, 0x18, 0x1E, 0x29, 0x33, 0x55, 0x65]))

/-- 30_encoding.md R59, 95_test_vectors.md 2.1: a word of each family, written out from its pattern, decodes to the
operation it stands for. -/
def Obligations.WrittenOutWordsDecode : Prop :=
  EncodedAs 0x0123 (.sys 0x123) ∧ EncodedAs 0x00E0 .cls ∧ EncodedAs 0x00EE .ret ∧
  EncodedAs 0x1234 (.jp 0x234) ∧ EncodedAs 0x2300 (.call 0x300) ∧ EncodedAs 0x332A (.seImm 3 0x2A) ∧
  EncodedAs 0x4103 (.sneImm 1 0x03) ∧ EncodedAs 0x5120 (.seReg 1 2) ∧ EncodedAs 0x6AFF (.ldImm 0xA 0xFF) ∧
  EncodedAs 0x7F03 (.addImm 0xF 0x03) ∧ EncodedAs 0x8125 (.sub 1 2) ∧ EncodedAs 0x81F6 (.shr 1 0xF) ∧
  EncodedAs 0x9120 (.sneReg 1 2) ∧ EncodedAs 0xA300 (.ldI 0x300) ∧ EncodedAs 0xBFFF (.jpV0 0xFFF) ∧
  EncodedAs 0xC30F (.rnd 3 0x0F) ∧ EncodedAs 0xD01F (.drw 0 1 15) ∧ EncodedAs 0xE4A1 (.sknp 4) ∧
  EncodedAs 0xF50A (.ldVxK 5) ∧ EncodedAs 0xF433 (.ldB 4)

/-! ## Control transfer -/

/-- 41_control.md R85 (the spec's decision D8): `SYS NNN` raises `UnspecifiedOperation` of its word under the policy
`Fault`, and only advances under `NoOp`. -/
def Obligations.SysFollowsPolicy : Prop :=
  ∀ (nnn : Addr12) (s : State), nnn ≠ 0x0E0#12 → nnn ≠ 0x0EE#12 →
    EncodedAs nnn.toNat (.sys nnn) ∧
    (s.config.sysPolicy = .fault →
      Raises (.sys nnn) s (.unspecifiedOperation (BitVec.ofNat 16 nnn.toNat))) ∧
    (s.config.sysPolicy = .noOp → s.Canonical →
      CompletesWith (.sys nnn) s (· = .pc) (fun t => t.pc = s.pc + 2))

/-- 41_control.md R86, 10_state.md R27 (the spec's decisions D3, D4): `RET` pops the pc and leaves the popped cell, or
raises `StackUnderflow` on an empty stack. -/
def Obligations.ReturnPopsProgramCounter : Prop :=
  ∀ s : State,
    EncodedAs 0x00EE .ret ∧
    (s.sp.val = 0 → Raises .ret s .stackUnderflow) ∧
    (∀ k : Fin 16, s.sp.val = k.val + 1 → s.Canonical →
      CompletesWith .ret s (fun p => p = .pc ∨ p = .sp) (fun t => t.sp.val = k.val ∧ t.pc = s.stack.get k))

/-- 41_control.md R87: `JP NNN` sets the program counter to `NNN` and changes nothing else. -/
def Obligations.JumpSetsProgramCounter : Prop :=
  ∀ (nnn : Addr12) (s : State), s.Canonical →
    EncodedAs (0x1000 + nnn.toNat) (.jp nnn) ∧
    CompletesWith (.jp nnn) s (· = .pc) (fun t => t.pc.toNat = nnn.toNat)

/-- 41_control.md R88, 10_state.md R27 (the spec's decisions D2, D3, D4): `CALL NNN` pushes the address after it and sets
the program counter, or raises `StackOverflow` on a full stack. -/
def Obligations.CallPushesReturnAddress : Prop :=
  ∀ (nnn : Addr12) (s : State),
    EncodedAs (0x2000 + nnn.toNat) (.call nnn) ∧
    (s.sp.val = 16 → Raises (.call nnn) s .stackOverflow) ∧
    (∀ k : Fin 16, s.sp.val = k.val → s.Canonical →
      CompletesWith (.call nnn) s (fun p => p = .pc ∨ p = .sp ∨ p = .stackCell k)
        (fun t => t.stack.get k = s.pc + 2 ∧ t.sp.val = k.val + 1 ∧ t.pc.toNat = nnn.toNat))

/-- 41_control.md R89, R90, R91, R92: the four register skips, each on its own comparison. -/
def Obligations.RegisterSkipsFollowComparison : Prop :=
  ∀ (x y : RegIdx) (nn : Byte) (s : State), s.Canonical →
    EncodedAs (0x3000 + x.val * 256 + nn.toNat) (.seImm x nn) ∧
    EncodedAs (0x4000 + x.val * 256 + nn.toNat) (.sneImm x nn) ∧
    EncodedAs (0x5000 + x.val * 256 + y.val * 16) (.seReg x y) ∧
    EncodedAs (0x9000 + x.val * 256 + y.val * 16) (.sneReg x y) ∧
    CompletesWith (.seImm x nn) s (· = .pc)
      (fun t => (s.reg x = nn → t.pc = s.pc + 4) ∧ (s.reg x ≠ nn → t.pc = s.pc + 2)) ∧
    CompletesWith (.sneImm x nn) s (· = .pc)
      (fun t => (s.reg x ≠ nn → t.pc = s.pc + 4) ∧ (s.reg x = nn → t.pc = s.pc + 2)) ∧
    CompletesWith (.seReg x y) s (· = .pc)
      (fun t => (s.reg x = s.reg y → t.pc = s.pc + 4) ∧ (s.reg x ≠ s.reg y → t.pc = s.pc + 2)) ∧
    CompletesWith (.sneReg x y) s (· = .pc)
      (fun t => (s.reg x ≠ s.reg y → t.pc = s.pc + 4) ∧ (s.reg x = s.reg y → t.pc = s.pc + 2))

/-- 41_control.md R93 (the spec's decision D5: the target is not reduced): `JP V0, NNN` goes to the whole sum, which may
lie outside the memory. -/
def Obligations.JumpOffsetAddsRegisterZero : Prop :=
  ∀ (nnn : Addr12) (s : State), s.Canonical →
    EncodedAs (0xB000 + nnn.toNat) (.jpV0 nnn) ∧
    CompletesWith (.jpV0 nnn) s (· = .pc) (fun t => t.pc.toNat = nnn.toNat + (s.reg 0).toNat)

/-! ## The ALU -/

/-- 42_alu.md R101, R102, R103: the immediate forms and the register copy write `Vx` and no flag. -/
def Obligations.ImmediateAndCopyFormsWriteDestination : Prop :=
  ∀ (x y : RegIdx) (nn : Byte) (s : State), s.Canonical →
    EncodedAs (0x6000 + x.val * 256 + nn.toNat) (.ldImm x nn) ∧
    EncodedAs (0x7000 + x.val * 256 + nn.toNat) (.addImm x nn) ∧
    EncodedAs (0x8000 + x.val * 256 + y.val * 16) (.ldReg x y) ∧
    CompletesWith (.ldImm x nn) s (fun p => p = .pc ∨ p = .reg x)
      (fun t => t.reg x = nn ∧ t.pc = s.pc + 2) ∧
    CompletesWith (.addImm x nn) s (fun p => p = .pc ∨ p = .reg x)
      (fun t => (t.reg x).toNat = ((s.reg x).toNat + nn.toNat) % 256 ∧ t.pc = s.pc + 2) ∧
    CompletesWith (.ldReg x y) s (fun p => p = .pc ∨ p = .reg x)
      (fun t => t.reg x = s.reg y ∧ t.pc = s.pc + 2)

/-- 42_alu.md R104, R105, R106 (the spec's decision D12: `VF` is not written): the logical operations, bit by bit. -/
def Obligations.LogicalOperationsActBitwise : Prop :=
  ∀ (x y : RegIdx) (s : State), s.Canonical →
    EncodedAs (0x8001 + x.val * 256 + y.val * 16) (.orReg x y) ∧
    EncodedAs (0x8002 + x.val * 256 + y.val * 16) (.andReg x y) ∧
    EncodedAs (0x8003 + x.val * 256 + y.val * 16) (.xorReg x y) ∧
    CompletesWith (.orReg x y) s (fun p => p = .pc ∨ p = .reg x)
      (fun t => (∀ b, (t.reg x).getLsbD b = ((s.reg x).getLsbD b || (s.reg y).getLsbD b)) ∧ t.pc = s.pc + 2) ∧
    CompletesWith (.andReg x y) s (fun p => p = .pc ∨ p = .reg x)
      (fun t => (∀ b, (t.reg x).getLsbD b = ((s.reg x).getLsbD b && (s.reg y).getLsbD b)) ∧ t.pc = s.pc + 2) ∧
    CompletesWith (.xorReg x y) s (fun p => p = .pc ∨ p = .reg x)
      (fun t => (∀ b, (t.reg x).getLsbD b = ((s.reg x).getLsbD b ^^ (s.reg y).getLsbD b)) ∧ t.pc = s.pc + 2)

/-- 42_alu.md R107, 10_state.md R23 (the spec's decision D11: the flag is written last): `ADD Vx, Vy` writes the sum
modulo 256 and the carry. -/
def Obligations.AddRegistersWritesSumAndCarry : Prop :=
  ∀ (x y : RegIdx) (s : State), s.Canonical →
    EncodedAs (0x8004 + x.val * 256 + y.val * 16) (.addReg x y) ∧
    CompletesWith (.addReg x y) s (fun p => p = .pc ∨ p = .reg x ∨ p = .reg 0xF)
      (fun t =>
        (x ≠ 0xF → (t.reg x).toNat = ((s.reg x).toNat + (s.reg y).toNat) % 256) ∧
        t.reg 0xF = (if 256 ≤ (s.reg x).toNat + (s.reg y).toNat then 1 else 0) ∧
        t.pc = s.pc + 2)

/-- 42_alu.md R108, R110, 10_state.md R23 (the spec's decision D11): `SUB` and `SUBN` write the difference modulo 256
and NOT borrow. -/
def Obligations.SubtractionsWriteDifferenceAndNotBorrow : Prop :=
  ∀ (x y : RegIdx) (s : State), s.Canonical →
    EncodedAs (0x8005 + x.val * 256 + y.val * 16) (.sub x y) ∧
    EncodedAs (0x8007 + x.val * 256 + y.val * 16) (.subn x y) ∧
    CompletesWith (.sub x y) s (fun p => p = .pc ∨ p = .reg x ∨ p = .reg 0xF)
      (fun t =>
        (x ≠ 0xF → (t.reg x).toNat = ((s.reg x).toNat + 256 - (s.reg y).toNat) % 256) ∧
        t.reg 0xF = (if (s.reg y).toNat ≤ (s.reg x).toNat then 1 else 0) ∧
        t.pc = s.pc + 2) ∧
    CompletesWith (.subn x y) s (fun p => p = .pc ∨ p = .reg x ∨ p = .reg 0xF)
      (fun t =>
        (x ≠ 0xF → (t.reg x).toNat = ((s.reg y).toNat + 256 - (s.reg x).toNat) % 256) ∧
        t.reg 0xF = (if (s.reg x).toNat ≤ (s.reg y).toNat then 1 else 0) ∧
        t.pc = s.pc + 2)

/-- 42_alu.md R109, R111, 10_state.md R23 (the spec's decision D11): the shifts move `Vx` by one bit and write the bit
shifted out, for every `Y`, which they do not read. -/
def Obligations.ShiftsWriteShiftedOutBit : Prop :=
  ∀ (x y : RegIdx) (s : State), s.Canonical →
    EncodedAs (0x8006 + x.val * 256 + y.val * 16) (.shr x y) ∧
    EncodedAs (0x800E + x.val * 256 + y.val * 16) (.shl x y) ∧
    CompletesWith (.shr x y) s (fun p => p = .pc ∨ p = .reg x ∨ p = .reg 0xF)
      (fun t =>
        (x ≠ 0xF → (t.reg x).toNat = (s.reg x).toNat / 2) ∧
        (t.reg 0xF).toNat = (s.reg x).toNat % 2 ∧
        t.pc = s.pc + 2) ∧
    CompletesWith (.shl x y) s (fun p => p = .pc ∨ p = .reg x ∨ p = .reg 0xF)
      (fun t =>
        (x ≠ 0xF → (t.reg x).toNat = (s.reg x).toNat * 2 % 256) ∧
        (t.reg 0xF).toNat = (s.reg x).toNat / 128 ∧
        t.pc = s.pc + 2)

/-- 42_alu.md R112 (the spec's decision D20; the draw counter is the model's, notes/assumptions/4.md): `RND` writes the
free draw masked with `NN`, whatever the draw is, and takes one draw. -/
def Obligations.RandomIsFreeDrawMasked : Prop :=
  ∀ (x : RegIdx) (nn : Byte) (s : State), s.Canonical →
    EncodedAs (0xC000 + x.val * 256 + nn.toNat) (.rnd x nn) ∧
    CompletesWith (.rnd x nn) s (fun p => p = .pc ∨ p = .reg x ∨ p = .draws)
      (fun t =>
        (∀ b, (t.reg x).getLsbD b = ((Config.randDraw s.draws).getLsbD b && nn.getLsbD b)) ∧
        t.draws = s.draws + 1 ∧ t.pc = s.pc + 2)

/-- 42_alu.md R113 (which the spec marks derived): the laws of the ALU. `ADD` then `SUB` restores `Vx`; `SHR` then `SHL`
clears bit 0; `VF` is 0 or 1 after every operation that writes it as a flag, also when `X = 0xF`. -/
def Obligations.AluLawsHold : Prop :=
  (∀ (x y : RegIdx) (s : State), x ≠ y → x ≠ 0xF → y ≠ 0xF →
    ∃ t u, exec (.addReg x y) s = .next t ∧ exec (.sub x y) t = .next u ∧ u.reg x = s.reg x) ∧
  (∀ (x y z : RegIdx) (s : State), x ≠ 0xF →
    ∃ t u, exec (.shr x y) s = .next t ∧ exec (.shl x z) t = .next u ∧ u.reg x = s.reg x &&& 0xFE) ∧
  (∀ (x y : RegIdx) (s : State) (i : Instr),
    i ∈ [.addReg x y, .sub x y, .shr x y, .subn x y, .shl x y] →
    ∃ t, exec i s = .next t ∧ (t.reg 0xF = 0 ∨ t.reg 0xF = 1))

/-! ## Index register and memory -/

/-- 43_index_memory.md R120, R121: `LD I, NNN` and `ADD I, Vx`, 16 bits with wrap, no flag. -/
def Obligations.IndexLoadAndAdd : Prop :=
  ∀ (x : RegIdx) (nnn : Addr12) (s : State), s.Canonical →
    EncodedAs (0xA000 + nnn.toNat) (.ldI nnn) ∧
    EncodedAs (0xF01E + x.val * 256) (.addI x) ∧
    CompletesWith (.ldI nnn) s (fun p => p = .pc ∨ p = .index)
      (fun t => t.I.toNat = nnn.toNat ∧ t.pc = s.pc + 2) ∧
    CompletesWith (.addI x) s (fun p => p = .pc ∨ p = .index)
      (fun t => t.I.toNat = (s.I.toNat + (s.reg x).toNat) % 65536 ∧ t.pc = s.pc + 2)

/-- 43_index_memory.md R122 (the spec's decision D19: the low nibble counts): `LD F, Vx`. -/
def Obligations.GlyphAddressIsFiveTimesLowNibble : Prop :=
  ∀ (x : RegIdx) (s : State), s.Canonical →
    EncodedAs (0xF029 + x.val * 256) (.ldF x) ∧
    CompletesWith (.ldF x) s (fun p => p = .pc ∨ p = .index)
      (fun t => t.I.toNat = 5 * ((s.reg x).toNat % 16) ∧ t.pc = s.pc + 2)

/-- 43_index_memory.md R123 (bounds and precision: the spec's decisions D5, D6): `LD B, Vx` stores the three digits at
`I`, `I + 1`, `I + 2`, or raises `MemoryBounds` of the lowest address outside the memory and stores nothing. -/
def Obligations.DecimalStoreWritesThreeDigits : Prop :=
  ∀ (x : RegIdx) (s : State),
    EncodedAs (0xF033 + x.val * 256) (.ldB x) ∧
    (∀ c, FirstOutOfRange s 3 c → Raises (.ldB x) s c) ∧
    (s.I.toNat + 2 < 4096 → s.Canonical →
      CompletesWith (.ldB x) s (fun p => p = .pc ∨ ∃ k, k < 3 ∧ p = .mem (s.I.toNat + k))
        (fun t =>
          (t.mem.read s.I.toNat).toNat = (s.reg x).toNat / 100 ∧
          (t.mem.read (s.I.toNat + 1)).toNat = (s.reg x).toNat / 10 % 10 ∧
          (t.mem.read (s.I.toNat + 2)).toNat = (s.reg x).toNat % 10 ∧
          t.pc = s.pc + 2))

/-- 43_index_memory.md R124 (the spec's decisions D5, D6, D13): `LD [I], Vx` stores `V0` to `Vx` from `I` up and leaves
`I`, or raises `MemoryBounds` of the lowest address outside the memory and stores nothing. -/
def Obligations.BlockStoreCopiesRegisters : Prop :=
  ∀ (x : RegIdx) (s : State),
    EncodedAs (0xF055 + x.val * 256) (.storeRegs x) ∧
    (∀ c, FirstOutOfRange s (x.val + 1) c → Raises (.storeRegs x) s c) ∧
    (s.I.toNat + x.val < 4096 → s.Canonical →
      CompletesWith (.storeRegs x) s (fun p => p = .pc ∨ ∃ k, k ≤ x.val ∧ p = .mem (s.I.toNat + k))
        (fun t => (∀ r : RegIdx, r ≤ x → t.mem.read (s.I.toNat + r.val) = s.reg r) ∧ t.pc = s.pc + 2))

/-- 43_index_memory.md R125 (the spec's decisions D5, D6, D13): `LD Vx, [I]` loads `V0` to `Vx` from `I` up and leaves
`I`, or raises `MemoryBounds` of the lowest address outside the memory and loads nothing. -/
def Obligations.BlockLoadCopiesMemory : Prop :=
  ∀ (x : RegIdx) (s : State),
    EncodedAs (0xF065 + x.val * 256) (.loadRegs x) ∧
    (∀ c, FirstOutOfRange s (x.val + 1) c → Raises (.loadRegs x) s c) ∧
    (s.I.toNat + x.val < 4096 → s.Canonical →
      CompletesWith (.loadRegs x) s (fun p => p = .pc ∨ ∃ r : RegIdx, r ≤ x ∧ p = .reg r)
        (fun t => (∀ r : RegIdx, r ≤ x → t.reg r = s.mem.read (s.I.toNat + r.val)) ∧ t.pc = s.pc + 2))

/-- 95_test_vectors.md S8 (43_index_memory.md R124, R125): registers stored and then loaded, in any state with the same
memory and index register, come back. -/
def Obligations.BlockStoreThenLoadRestores : Prop :=
  ∀ (x : RegIdx) (s : State), s.I.toNat + x.val < 4096 →
    ∃ t, exec (.storeRegs x) s = .next t ∧
      ∀ u : State, u.mem = t.mem → u.I = t.I →
        ∃ v, exec (.loadRegs x) u = .next v ∧ ∀ r : RegIdx, r ≤ x → v.reg r = s.reg r

/-- 20_memory.md R53 (the spec's decision D25): two bytes that `LD [I], Vx` stores where the next step fetches are the
word that step fetches. -/
def Obligations.StoreIsSeenByNextFetch : Prop :=
  ∀ (x : RegIdx) (k : RegIdx) (s t : State), k < x → s.I.toNat + x.val < 4096 →
    exec (.storeRegs x) s = .next t → t.pc.toNat = s.I.toNat + k.val →
    fetch t = .ok (wordOfBytes (s.reg k) (s.reg (k + 1)))

/-! ## Display -/

/-- 44_display.md R130: `CLS` sets every cell false and changes nothing else but the pc. -/
def Obligations.ClearSetsEveryCellFalse : Prop :=
  ∀ s : State, s.Canonical →
    EncodedAs 0x00E0 .cls ∧
    CompletesWith .cls s (fun p => p = .pc ∨ ∃ x y, p = .pixel x y)
      (fun t => (∀ x y, t.fb.pixel x y = false) ∧ t.pc = s.pc + 2)

/-- 44_display.md R131, R132, R133 (R133 is derived, the geometry and the flag are the spec's decisions D14, D15):
`DRW` toggles exactly the cells on which a set sprite bit lands and sets `VF` to 1 exactly when one of them was set, or
raises `MemoryBounds` of the lowest sprite address outside the memory and draws nothing. -/
def Obligations.DrawXorsSpriteAndReportsCollision : Prop :=
  ∀ (x y : RegIdx) (n : Fin 16) (s : State),
    EncodedAs (0xD000 + x.val * 256 + y.val * 16 + n.val) (.drw x y n) ∧
    (∀ c, FirstOutOfRange s n.val c → Raises (.drw x y n) s c) ∧
    ((∀ r, r < n.val → s.I.toNat + r < 4096) → s.Canonical →
      CompletesWith (.drw x y n) s
        (fun p => p = .pc ∨ p = .reg 0xF ∨ ∃ px py, p = .pixel px py ∧ SpriteHits s x y n.val px py)
        (fun t =>
          (∀ px py, SpriteHits s x y n.val px py → t.fb.pixel px py = !s.fb.pixel px py) ∧
          ((∃ px py, SpriteHits s x y n.val px py ∧ s.fb.pixel px py = true) → t.reg 0xF = 1) ∧
          ((∀ px py, SpriteHits s x y n.val px py → s.fb.pixel px py = false) → t.reg 0xF = 0) ∧
          t.pc = s.pc + 2))

/-- 95_test_vectors.md S6 (44_display.md R131, R133): a sprite drawn twice at the same coordinates leaves the framebuffer
as it was; drawn first over clear cells it reports no collision, and then a collision. -/
def Obligations.DrawTwiceRestoresDisplay : Prop :=
  ∀ (x y : RegIdx) (n : Fin 16) (s : State), x ≠ 0xF → y ≠ 0xF → (∀ r, r < n.val → s.I.toNat + r < 4096) →
    ∃ t u, exec (.drw x y n) s = .next t ∧ exec (.drw x y n) t = .next u ∧
      (∀ px py, u.fb.pixel px py = s.fb.pixel px py) ∧
      ((∀ px py, SpriteHits s x y n.val px py → s.fb.pixel px py = false) →
        t.reg 0xF = 0 ∧ ((∃ px py, SpriteHits s x y n.val px py) → u.reg 0xF = 1))

/-- 10_state.md R28: no command but `reset` and a `step` of `CLS` or `DRW` changes a cell of the framebuffer. -/
def Obligations.FramebufferWrittenOnlyByDisplayInstructions : Prop :=
  (∀ (i : Instr) (s t : State), exec i s = .next t → (∃ px py, t.fb.pixel px py ≠ s.fb.pixel px py) →
    i = .cls ∨ ∃ x y n, i = .drw x y n) ∧
  (∀ (c : Command) (s : State), c ≠ .reset → c ≠ .step → (runCommand c s).1.fb = s.fb)

/-! ## Keys and timers -/

/-- 45_keys_timers.md R140, R141 (the spec's decision D16): the key skips test the key's level, or raise `KeyIndexRange`
for a value at or above 16. -/
def Obligations.KeySkipsTestKeyLevel : Prop :=
  ∀ (x : RegIdx) (s : State),
    EncodedAs (0xE09E + x.val * 256) (.skp x) ∧
    EncodedAs (0xE0A1 + x.val * 256) (.sknp x) ∧
    (16 ≤ (s.reg x).toNat →
      Raises (.skp x) s (.keyIndexRange (s.reg x)) ∧ Raises (.sknp x) s (.keyIndexRange (s.reg x))) ∧
    (∀ k : Fin 16, (s.reg x).toNat = k.val → s.Canonical →
      CompletesWith (.skp x) s (· = .pc)
        (fun t => (s.keyAt k = true → t.pc = s.pc + 4) ∧ (s.keyAt k = false → t.pc = s.pc + 2)) ∧
      CompletesWith (.sknp x) s (· = .pc)
        (fun t => (s.keyAt k = false → t.pc = s.pc + 4) ∧ (s.keyAt k = true → t.pc = s.pc + 2)))

/-- 45_keys_timers.md R142, R143: the delay timer is read into and written from a register. -/
def Obligations.DelayTimerMoves : Prop :=
  ∀ (x : RegIdx) (s : State), s.Canonical →
    EncodedAs (0xF007 + x.val * 256) (.ldVxDt x) ∧
    EncodedAs (0xF015 + x.val * 256) (.ldDtVx x) ∧
    CompletesWith (.ldVxDt x) s (fun p => p = .pc ∨ p = .reg x) (fun t => t.reg x = s.dt ∧ t.pc = s.pc + 2) ∧
    CompletesWith (.ldDtVx x) s (fun p => p = .pc ∨ p = .delayTimer) (fun t => t.dt = s.reg x ∧ t.pc = s.pc + 2)

/-- 45_keys_timers.md R144 (the spec's decision D30: no edge): `LD ST, Vx` writes the sound timer, and a step that runs
it replies `ok`. -/
def Obligations.SoundTimerWriteEmitsNoEdge : Prop :=
  ∀ (x : RegIdx) (s : State), s.Canonical →
    EncodedAs (0xF018 + x.val * 256) (.ldStVx x) ∧
    CompletesWith (.ldStVx x) s (fun p => p = .pc ∨ p = .soundTimer) (fun t => t.st = s.reg x ∧ t.pc = s.pc + 2) ∧
    (s.fault = none → fetch s = .ok (encode (.ldStVx x)) → (runCommand .step s).2 = .ok)

/-- 45_keys_timers.md R145, 40_pipeline.md R75 (the spec's decisions D17, D33; the draw counter is the model's,
notes/assumptions/4.md): `LD Vx, K` with a key pressed writes the free draw and advances; with none it changes nothing,
so that the next step runs it again; under ReferenceDouble the no-key case is refused. -/
def Obligations.WaitKeyReadsDrawOrWaits : Prop :=
  ∀ (x : RegIdx) (s : State),
    EncodedAs (0xF00A + x.val * 256) (.ldVxK x) ∧
    ((∃ k, s.keyAt k = true) → s.Canonical →
      CompletesWith (.ldVxK x) s (fun p => p = .pc ∨ p = .reg x ∨ p = .draws)
        (fun t => t.reg x = Config.waitKeyDraw s.draws ∧ t.draws = s.draws + 1 ∧ t.pc = s.pc + 2)) ∧
    ((∀ k, s.keyAt k = false) → s.Canonical → exec (.ldVxK x) s = .next s) ∧
    ((∀ k, s.keyAt k = false) → s.config.pcContract = .referenceDouble →
      exec (.ldVxK x) s = .refused .waitKeyReferenceDouble)

/-! ## One step -/

/-- 40_pipeline.md R70 to R73: a running machine whose bytes at the pc decode to an instruction executes exactly that
instruction; the step adds nothing around it. -/
def Obligations.StepRunsDecodedInstruction : Prop :=
  ∀ (s : State) (i : Instr), s.fault = none → s.pc.toNat + 1 < 4096 →
    decode [s.mem.read s.pc.toNat, s.mem.read (s.pc.toNat + 1)] = .ok (i, []) →
    step s = exec i s

/-- 40_pipeline.md R71, 60_exceptions.md R153, R156 (the spec's decisions D5, D6): a fetch outside the memory records
`MemoryBounds` of its lowest address, code 5, no word, and changes nothing else. -/
def Obligations.FetchOutsideMemoryIsRecorded : Prop :=
  ∀ s : State, s.fault = none → 4096 ≤ s.pc.toNat + 1 →
    ∃ t r, step s = .next t ∧ OnlyChanges (· = .fault) s t ∧ t.fault = some r ∧
      r.code = 5 ∧ r.pc = s.pc ∧ r.word = none ∧
      (s.pc.toNat = 4095 → r.info = .address 0x1000) ∧
      (4096 ≤ s.pc.toNat → r.info = .address s.pc.toNat)

/-- 40_pipeline.md R72, 60_exceptions.md R151, R156 (codes: the spec's decision D28): an illegal word records
`IllegalInstruction`, code 1, with the word, and changes nothing else. -/
def Obligations.IllegalWordIsRecorded : Prop :=
  ∀ (s : State) (w : Word), s.fault = none → fetch s = .ok w → decodeWord w = .error (.illegal w) →
    ∃ t r, step s = .next t ∧ OnlyChanges (· = .fault) s t ∧ t.fault = some r ∧
      r.code = 1 ∧ r.pc = s.pc ∧ r.word = some w ∧ r.info = .word w

/-- 60_exceptions.md R155 (the spec's decision D7): on a machine that has recorded a fault the step command is refused,
changes nothing and returns the record, however often it is issued. -/
def Obligations.FaultedMachineRefusesSteps : Prop :=
  ∀ (n : Nat) (s : State) (r : FaultRecord), s.fault = some r →
    step s = .fault (.recorded r) ∧
    runCommands (List.replicate n .step) s = (s, List.replicate n (.fault r))

/-- 60_exceptions.md R154, R156 (the spec's decision D6): a step that raises a fault writes the record and nothing else;
the record holds the pc, and the fetched word but for a fetch fault. -/
def Obligations.FaultingStepWritesOnlyTheRecord : Prop :=
  ∀ (s t : State) (r : FaultRecord), step s = .next t → t.fault = some r →
    s.fault = none ∧ OnlyChanges (· = .fault) s t ∧ r.pc = s.pc ∧
    (∀ w, fetch s = .ok w → r.word = some w) ∧
    (∀ c, fetch s = .error c → r.word = none ∧ r.cause = c)

/-- 60_exceptions.md R152 (which the spec marks derived): an instruction raises the causes of the table, when the table
says and never otherwise; with no cause it runs and records nothing, but for the refused wait of 40_pipeline.md R75. -/
def Obligations.InstructionsRaiseExactlyTheirCauses : Prop :=
  ∀ (i : Instr) (s : State),
    (∀ c, RaisesIn i s c → Raises i s c) ∧
    ((∀ c, ¬ RaisesIn i s c) →
      (∃ t, exec i s = .next t ∧ t.fault = s.fault) ∨
      (exec i s = .refused .waitKeyReferenceDouble ∧ (∃ x, i = .ldVxK x) ∧ (∀ k, s.keyAt k = false) ∧
        s.config.pcContract = .referenceDouble))

/-- 40_pipeline.md R70, R79: a machine without a recorded fault never stops under the Canonical contract: whatever its
state and memory, the step answers a next state. -/
def Obligations.RunningMachineAlwaysSteps : Prop :=
  ∀ s : State, s.fault = none → s.Canonical → ∃ t, step s = .next t

/-- 40_pipeline.md R75 (the spec's decisions D1, D33): where the Canonical machine completes an instruction, the
ReferenceDouble machine completes it with the same effect and a pc 2 higher; a fault is recorded alike, with the pc
unmoved; and the wait with no key is refused. -/
def Obligations.ReferenceDoubleAddsTwo : Prop :=
  ∀ (i : Instr) (s t : State), s.Canonical → s.fault = none → exec i s = .next t →
    (∀ r, t.fault = some r →
      exec i { s with config := { s.config with pcContract := .referenceDouble } } =
        .next { t with config := { s.config with pcContract := .referenceDouble } }) ∧
    (t.fault = none → ((∃ k, s.keyAt k = true) ∨ ∀ x, i ≠ .ldVxK x) →
      exec i { s with config := { s.config with pcContract := .referenceDouble } } =
        .next { t with config := { s.config with pcContract := .referenceDouble }, pc := t.pc + 2 }) ∧
    (∀ x, i = .ldVxK x → (∀ k, s.keyAt k = false) →
      exec i { s with config := { s.config with pcContract := .referenceDouble } } =
        .refused .waitKeyReferenceDouble)

/-- 30_encoding.md R65, 40_pipeline.md R79: the idle idiom, a jump to its own address, reaches a state that every further
step leaves unchanged, and no number of steps records a fault. -/
def Obligations.JumpToItselfIdlesForever : Prop :=
  ∀ (s : State) (nnn : Addr12), s.fault = none → s.Canonical → s.pc.toNat = nnn.toNat →
    fetch s = .ok (encode (.jp nnn)) → step s = .next s ∧ ∀ n, SafeFor n s

/-! ## What instructions write and read -/

/-- 10_state.md R38 (which the spec marks derived), 60_exceptions.md R154: an instruction that answers a next state
changes only the parts the table gives it, or only the fault record, with a cause it may raise. The draw counter that
`MayWrite` adds to the table for `RND` and `LD Vx, K` is the model's (notes/assumptions/4.md). -/
def Obligations.InstructionsWriteOnlyTheirOwnState : Prop :=
  ∀ (i : Instr) (s t : State), exec i s = .next t →
    OnlyChanges (MayWrite i s) s t ∨
    ∃ c, RaisesIn i s c ∧ t.fault = some { cause := c, pc := s.pc, word := some (encode i) } ∧
      OnlyChanges (· = .fault) s t

/-- 10_state.md R26: the stack is touched only by `CALL` and `RET`: every other instruction leaves it, and runs alike
whatever it holds. -/
def Obligations.StackTouchedOnlyByCallAndReturn : Prop :=
  ∀ (i : Instr) (s : State) (stack : Vector Word 16) (sp : Fin 17), (∀ nnn, i ≠ .call nnn) → i ≠ .ret →
    (∀ t, exec i s = .next t → t.stack = s.stack ∧ t.sp = s.sp) ∧
    exec i { s with stack := stack, sp := sp } = mapNext (fun t => { t with stack := stack, sp := sp }) (exec i s)

/-- 10_state.md R29, 70_reset_and_hazards.md R181: no instruction writes the keypad, only the host's setter and reset do,
and an instruction other than `SKP`, `SKNP` and `LD Vx, K` runs alike whatever it holds. That a step which the model
refuses leaves the state as it was, the keypad included, is the model's choice (DESIGN CHOICE,
notes/assumptions/14.md). -/
def Obligations.KeypadIsReadOnlyToInstructions : Prop :=
  (∀ (i : Instr) (s t : State), exec i s = .next t → t.key = s.key) ∧
  (∀ (c : Command) (s : State), c ≠ .reset → (∀ k p, c ≠ .setKey k p) → (runCommand c s).1.key = s.key) ∧
  (∀ (i : Instr) (s : State) (key : Vector Bool 16),
    (∀ x, i ≠ .skp x) → (∀ x, i ≠ .sknp x) → (∀ x, i ≠ .ldVxK x) →
    exec i { s with key := key } = mapNext (fun t => { t with key := key }) (exec i s))

/-- 10_state.md R30, R35: no instruction reads the sound timer: what an instruction does is the same whatever it holds,
and only `LD ST, Vx` replaces it. -/
def Obligations.SoundTimerIsNeverRead : Prop :=
  ∀ (i : Instr) (s : State) (b : Byte),
    ((∀ x, i ≠ .ldStVx x) → exec i { s with st := b } = mapNext (fun t => { t with st := b }) (exec i s)) ∧
    (∀ x, i = .ldStVx x → exec i { s with st := b } = exec i s)

/-! ## Invariants -/

/-- 40_pipeline.md R76, 41_control.md R86: the pc and the return addresses stay within what the instructions can
compute, so no sum reaches 65536. -/
def Obligations.StepKeepsAddressesBounded : Prop :=
  ∀ s t : State, AddressesBounded s → step s = .next t → AddressesBounded t

/-- The model's three invariants hold after reset and after construction (10_state.md R36, R33,
70_reset_and_hazards.md R180), whatever the parameters. The canonical form of the memory is no rule of the spec: it is
the model's choice of a sparse memory (DESIGN CHOICE, notes/assumptions/3.md). -/
def Obligations.ConstructedStateMeetsInvariants : Prop :=
  (AddressesBounded State.reset ∧ State.reset.mem.wf ∧ FaultRecordConsistent State.reset) ∧
  ∀ c, AddressesBounded (construct c) ∧ (construct c).mem.wf ∧ FaultRecordConsistent (construct c)

/-- Every command keeps the canonical form of the memory, the model's choice (DESIGN CHOICE, notes/assumptions/3.md), so
nothing is ever listed outside the address space (20_memory.md R40, R43) and equal memories are equal data. A step that
the model refuses leaves the state as it was, also the model's choice (notes/assumptions/14.md). -/
def Obligations.CommandsKeepMemoryCanonical : Prop :=
  ∀ (c : Command) (s : State), s.mem.wf → (runCommand c s).1.mem.wf

/-- 60_exceptions.md R151, R155, R156: whatever commands the host issues, a recorded fault is one that the step at the
state's pc raised. That a run of commands goes on, from the unchanged state, after a step that the model refuses is the
model's choice (notes/assumptions/14.md). -/
def Obligations.CommandsKeepFaultRecordConsistent : Prop :=
  ∀ (cs : List Command) (s : State), FaultRecordConsistent s → FaultRecordConsistent (runCommands cs s).1

/-! ## Memory -/

/-- 20_memory.md R43, R50: a byte read after a write is the byte written at its address and the old byte everywhere
else. -/
def Obligations.ReadAfterWriteReturnsByte : Prop :=
  ∀ (m m' : Memory) (a b : Nat) (v : Byte), memWrite m a v = .ok m' →
    a < 4096 ∧ m'.read b = (if b = a then v else m.read b)

/-- The canonical form (20_memory.md R40; the model's choice of a sparse memory, notes/assumptions/3.md): two memories in
it that read the same at every address are equal data. -/
def Obligations.CanonicalMemoriesReadingAlikeAreEqual : Prop :=
  ∀ m m' : Memory, m.wf → m'.wf → (∀ a, a < 4096 → m.read a = m'.read a) → m = m'

/-! ## Host commands -/

/-- 70_reset_and_hazards.md R180 (`fault = none` is the spec's decision D31): the state `construct` creates, and that it is the model's reset state for the default
parameters. -/
def Obligations.ConstructedStateIsAsSpecified : Prop :=
  construct defaultConfig = State.reset ∧
  ∀ c : Config,
    (∀ a : Fin 80, (construct c).mem.read a.val = c.glyphRom.get a) ∧
    (∀ a, 80 ≤ a → (construct c).mem.read a = 0) ∧
    (∀ r, (construct c).reg r = 0) ∧ (construct c).I = 0 ∧ (construct c).pc = 0x200 ∧
    (∀ k, (construct c).stack.get k = 0) ∧ (construct c).sp = 0 ∧
    (∀ x y, (construct c).fb.pixel x y = false) ∧ (∀ k, (construct c).keyAt k = false) ∧
    (construct c).dt = 0 ∧ (construct c).st = 0 ∧ (construct c).fault = none ∧ (construct c).config = c

/-- 70_reset_and_hazards.md R181 (the spec's decision D31; that the draws go on is the model's choice,
notes/assumptions/12.md): `reset` gives the constructed state of the same parameters, whatever the state was, a recorded
fault included. -/
def Obligations.ResetRestoresConstructedState : Prop :=
  ∀ s : State,
    runCommand .reset s = ({ construct s.config with draws := s.draws }, .none) ∧ (runCommand .reset s).1.fault = none

/-- 60_exceptions.md R166 (the spec's decision D22): a load of at most 3584 bytes places them at 0x200 and changes
nothing else; a longer one changes nothing and replies `LoadTooLarge`. -/
def Obligations.LoadPlacesImageOrRefuses : Prop :=
  ∀ (image : List Byte) (s : State),
    (image.length ≤ 3584 →
      (runCommand (.load image) s).2 = .ok ∧
      (∀ k, k < image.length → some ((runCommand (.load image) s).1.mem.read (0x200 + k)) = image[k]?) ∧
      OnlyChanges (fun p => ∃ k, k < image.length ∧ p = .mem (0x200 + k)) s (runCommand (.load image) s).1) ∧
    (3584 < image.length → runCommand (.load image) s = (s, .loadTooLarge))

/-- 60_exceptions.md R162 (that a recorded fault does not gate it is the spec's decision D7): a timer tick decrements
both timers toward zero and changes nothing else. -/
def Obligations.TimerTickDecrementsBothTimers : Prop :=
  ∀ s : State,
    (runCommand .timerTick s).1.dt.toNat = s.dt.toNat - 1 ∧
    (runCommand .timerTick s).1.st.toNat = s.st.toNat - 1 ∧
    OnlyChanges (fun p => p = .delayTimer ∨ p = .soundTimer) s (runCommand .timerTick s).1

/-- 60_exceptions.md R163 (that no instruction emits it is the spec's decision D30): the edge comes exactly when the sound timer goes from 1 to 0 on a tick, and from no other
command. -/
def Obligations.SoundEdgeExactlyAtOneToZero : Prop :=
  (∀ s : State, ∃ e, (runCommand .timerTick s).2 = .edge e ∧
    (e = true ↔ s.st = 1 ∧ (runCommand .timerTick s).1.st = 0)) ∧
  (∀ (c : Command) (s : State) (e : Bool), (runCommand c s).2 = .edge e → c = .timerTick)

/-- 60_exceptions.md R164: `set_key` sets one keypad cell; an index outside 0..15 is ignored. -/
def Obligations.SetKeySetsOneCell : Prop :=
  ∀ (index : Nat) (pressed : Bool) (s : State),
    (runCommand (.setKey index pressed) s).2 = .none ∧
    (∀ k : Fin 16, k.val = index →
      (runCommand (.setKey index pressed) s).1.keyAt k = pressed ∧
      OnlyChanges (· = .key k) s (runCommand (.setKey index pressed) s).1) ∧
    (16 ≤ index → (runCommand (.setKey index pressed) s).1 = s)

/-- 60_exceptions.md R165: `read_display` returns 2048 booleans, element `y * 64 + x` the cell (`x`, `y`), and changes no
state. -/
def Obligations.ReadDisplayIsRowMajor : Prop :=
  ∀ s : State, ∃ cells, runCommand .readDisplay s = (s, .display cells) ∧ cells.length = 64 * 32 ∧
    ∀ (x : Fin 64) (y : Fin 32), cells[y.val * 64 + x.val]? = some (s.fb.pixel x y)

/-- 60_exceptions.md R155, 70_reset_and_hazards.md R181 (the spec's decision D7): on a faulted machine every command but
`reset` keeps the record, and timer ticks, key sets and loads have the effect they have on a running one. -/
def Obligations.CommandsWorkOnFaultedMachine : Prop :=
  ∀ (c : Command) (s : State) (r : FaultRecord), s.fault = some r → c ≠ .reset →
    (runCommand c s).1.fault = some r ∧
    (c ≠ .step →
      runCommand c { s with fault := none } =
        ({ (runCommand c s).1 with fault := none }, (runCommand c s).2))
end

