-- ==== Sys2Proof/Laws/Decode.lean ====
section
/-! SUPPORT. The fields of an encoded word, and the decoder on words given by their fields (30_encoding.md R56 to R60). -/

namespace Sys2Proof

/-! ## The fields as numbers -/

theorem fieldF_eq (w : Word) : fieldF w = w.toNat / 4096 := by
  have := w.isLt
  simp only [fieldF, bits]
  omega

theorem fieldX_val (w : Word) : (fieldX w).val = w.toNat / 256 % 16 := by
  simp only [fieldX, bits, Fin.ofNat]
  omega

theorem fieldY_val (w : Word) : (fieldY w).val = w.toNat / 16 % 16 := by
  simp only [fieldY, bits, Fin.ofNat]
  omega

theorem fieldN_eq (w : Word) : fieldN w = w.toNat % 16 := by
  simp only [fieldN, bits]
  omega

theorem fieldRows_val (w : Word) : (fieldRows w).val = w.toNat % 16 := by
  simp only [fieldRows, bits, Fin.ofNat]
  omega

theorem fieldNN_toNat (w : Word) : (fieldNN w).toNat = w.toNat % 256 := by
  simp only [fieldNN, bits, BitVec.toNat_ofNat]
  omega

theorem fieldNNN_toNat (w : Word) : (fieldNNN w).toNat = w.toNat % 4096 := by
  simp only [fieldNNN, bits, BitVec.toNat_ofNat]
  omega

/-! ## The packed words as numbers -/

theorem packNNN_toNat {f : Nat} (hf : f < 16) (nnn : Addr12) : (packNNN f nnn).toNat = f * 4096 + nnn.toNat := by
  have := nnn.isLt
  simp only [packNNN, BitVec.toNat_ofNat]
  omega

theorem packXNN_toNat {f nn : Nat} (hf : f < 16) (hn : nn < 256) (x : RegIdx) :
    (packXNN f x nn).toNat = f * 4096 + x.val * 256 + nn := by
  have := x.isLt
  simp only [packXNN, BitVec.toNat_ofNat]
  omega

theorem packXYN_toNat {f n : Nat} (hf : f < 16) (hn : n < 16) (x y : RegIdx) :
    (packXYN f x y n).toNat = f * 4096 + x.val * 256 + y.val * 16 + n := by
  have := x.isLt
  have := y.isLt
  simp only [packXYN, BitVec.toNat_ofNat]
  omega

/-! ## Fields of packed words -/

theorem fieldF_packNNN {f : Nat} (hf : f < 16) (nnn : Addr12) : fieldF (packNNN f nnn) = f := by
  have := nnn.isLt
  rw [fieldF_eq, packNNN_toNat hf]
  omega

theorem fieldNNN_packNNN {f : Nat} (hf : f < 16) (nnn : Addr12) : fieldNNN (packNNN f nnn) = nnn := by
  apply BitVec.eq_of_toNat_eq
  have := nnn.isLt
  rw [fieldNNN_toNat, packNNN_toNat hf]
  omega

theorem fieldF_packXNN {f nn : Nat} (hf : f < 16) (hn : nn < 256) (x : RegIdx) : fieldF (packXNN f x nn) = f := by
  have := x.isLt
  rw [fieldF_eq, packXNN_toNat hf hn]
  omega

theorem fieldX_packXNN {f nn : Nat} (hf : f < 16) (hn : nn < 256) (x : RegIdx) : fieldX (packXNN f x nn) = x := by
  apply Fin.ext
  have := x.isLt
  rw [fieldX_val, packXNN_toNat hf hn]
  omega

theorem fieldNN_packXNN {f nn : Nat} (hf : f < 16) (hn : nn < 256) (x : RegIdx) :
    (fieldNN (packXNN f x nn)).toNat = nn := by
  have := x.isLt
  rw [fieldNN_toNat, packXNN_toNat hf hn]
  omega

theorem fieldF_packXYN {f n : Nat} (hf : f < 16) (hn : n < 16) (x y : RegIdx) : fieldF (packXYN f x y n) = f := by
  have := x.isLt
  have := y.isLt
  rw [fieldF_eq, packXYN_toNat hf hn]
  omega

theorem fieldX_packXYN {f n : Nat} (hf : f < 16) (hn : n < 16) (x y : RegIdx) : fieldX (packXYN f x y n) = x := by
  apply Fin.ext
  have := x.isLt
  have := y.isLt
  rw [fieldX_val, packXYN_toNat hf hn]
  omega

theorem fieldY_packXYN {f n : Nat} (hf : f < 16) (hn : n < 16) (x y : RegIdx) : fieldY (packXYN f x y n) = y := by
  apply Fin.ext
  have := x.isLt
  have := y.isLt
  rw [fieldY_val, packXYN_toNat hf hn]
  omega

theorem fieldN_packXYN {f n : Nat} (hf : f < 16) (hn : n < 16) (x y : RegIdx) : fieldN (packXYN f x y n) = n := by
  have := x.isLt
  have := y.isLt
  rw [fieldN_eq, packXYN_toNat hf hn]
  omega

theorem fieldRows_packXYN {f : Nat} (hf : f < 16) (n : Fin 16) (x y : RegIdx) :
    fieldRows (packXYN f x y n.val) = n := by
  apply Fin.ext
  have := x.isLt
  have := y.isLt
  have := n.isLt
  rw [fieldRows_val, packXYN_toNat hf n.isLt]
  omega

/-! ## Bytes of a word -/

theorem wordOfBytes_toNat (hi lo : Byte) : (wordOfBytes hi lo).toNat = hi.toNat * 256 + lo.toNat := by
  have := hi.isLt
  have := lo.isLt
  simp only [wordOfBytes, BitVec.toNat_ofNat]
  omega

/-- The bytes of a word, the high one first, give the word again (20_memory.md R42). -/
@[simp] theorem wordOfBytes_hi_lo (w : Word) : wordOfBytes (hiByte w) (loByte w) = w := by
  apply BitVec.eq_of_toNat_eq
  have := w.isLt
  rw [wordOfBytes_toNat]
  simp only [hiByte, loByte, bits, BitVec.toNat_ofNat]
  omega

end Sys2Proof
end

