-- ==== Sys2Proof/Laws/State.lean ====
section
/-! SUPPORT. One lemma per field per state update, each true by rfl, so that no proof unfolds a record update. -/

namespace Sys2Proof.Machine

/-! ## `State.setReg` -/

@[simp] theorem State.setReg_mem (s : State) (r : RegIdx) (b : Byte) : (s.setReg r b).mem = s.mem := rfl
@[simp] theorem State.setReg_v (s : State) (r : RegIdx) (b : Byte) : (s.setReg r b).v = s.v.set r.val b r.isLt := rfl
@[simp] theorem State.setReg_I (s : State) (r : RegIdx) (b : Byte) : (s.setReg r b).I = s.I := rfl
@[simp] theorem State.setReg_pc (s : State) (r : RegIdx) (b : Byte) : (s.setReg r b).pc = s.pc := rfl
@[simp] theorem State.setReg_stack (s : State) (r : RegIdx) (b : Byte) : (s.setReg r b).stack = s.stack := rfl
@[simp] theorem State.setReg_sp (s : State) (r : RegIdx) (b : Byte) : (s.setReg r b).sp = s.sp := rfl
@[simp] theorem State.setReg_fb (s : State) (r : RegIdx) (b : Byte) : (s.setReg r b).fb = s.fb := rfl
@[simp] theorem State.setReg_key (s : State) (r : RegIdx) (b : Byte) : (s.setReg r b).key = s.key := rfl
@[simp] theorem State.setReg_dt (s : State) (r : RegIdx) (b : Byte) : (s.setReg r b).dt = s.dt := rfl
@[simp] theorem State.setReg_st (s : State) (r : RegIdx) (b : Byte) : (s.setReg r b).st = s.st := rfl
@[simp] theorem State.setReg_fault (s : State) (r : RegIdx) (b : Byte) : (s.setReg r b).fault = s.fault := rfl
@[simp] theorem State.setReg_config (s : State) (r : RegIdx) (b : Byte) : (s.setReg r b).config = s.config := rfl
@[simp] theorem State.setReg_draws (s : State) (r : RegIdx) (b : Byte) : (s.setReg r b).draws = s.draws := rfl

/-! ## `State.setFlag` -/

@[simp] theorem State.setFlag_mem (s : State) (f : Bool) : (s.setFlag f).mem = s.mem := rfl
@[simp] theorem State.setFlag_v (s : State) (f : Bool) : (s.setFlag f).v = s.v.set 15 (flagByte f) := rfl
@[simp] theorem State.setFlag_I (s : State) (f : Bool) : (s.setFlag f).I = s.I := rfl
@[simp] theorem State.setFlag_pc (s : State) (f : Bool) : (s.setFlag f).pc = s.pc := rfl
@[simp] theorem State.setFlag_stack (s : State) (f : Bool) : (s.setFlag f).stack = s.stack := rfl
@[simp] theorem State.setFlag_sp (s : State) (f : Bool) : (s.setFlag f).sp = s.sp := rfl
@[simp] theorem State.setFlag_fb (s : State) (f : Bool) : (s.setFlag f).fb = s.fb := rfl
@[simp] theorem State.setFlag_key (s : State) (f : Bool) : (s.setFlag f).key = s.key := rfl
@[simp] theorem State.setFlag_dt (s : State) (f : Bool) : (s.setFlag f).dt = s.dt := rfl
@[simp] theorem State.setFlag_st (s : State) (f : Bool) : (s.setFlag f).st = s.st := rfl
@[simp] theorem State.setFlag_fault (s : State) (f : Bool) : (s.setFlag f).fault = s.fault := rfl
@[simp] theorem State.setFlag_config (s : State) (f : Bool) : (s.setFlag f).config = s.config := rfl
@[simp] theorem State.setFlag_draws (s : State) (f : Bool) : (s.setFlag f).draws = s.draws := rfl

/-! ## `State.loadRegsFrom` -/

@[simp] theorem State.loadRegsFrom_mem (s : State) (bs : List Byte) : (s.loadRegsFrom bs).mem = s.mem := rfl
@[simp] theorem State.loadRegsFrom_v (s : State) (bs : List Byte) : (s.loadRegsFrom bs).v = writeRegs s.v 0 bs := rfl
@[simp] theorem State.loadRegsFrom_I (s : State) (bs : List Byte) : (s.loadRegsFrom bs).I = s.I := rfl
@[simp] theorem State.loadRegsFrom_pc (s : State) (bs : List Byte) : (s.loadRegsFrom bs).pc = s.pc := rfl
@[simp] theorem State.loadRegsFrom_stack (s : State) (bs : List Byte) : (s.loadRegsFrom bs).stack = s.stack := rfl
@[simp] theorem State.loadRegsFrom_sp (s : State) (bs : List Byte) : (s.loadRegsFrom bs).sp = s.sp := rfl
@[simp] theorem State.loadRegsFrom_fb (s : State) (bs : List Byte) : (s.loadRegsFrom bs).fb = s.fb := rfl
@[simp] theorem State.loadRegsFrom_key (s : State) (bs : List Byte) : (s.loadRegsFrom bs).key = s.key := rfl
@[simp] theorem State.loadRegsFrom_dt (s : State) (bs : List Byte) : (s.loadRegsFrom bs).dt = s.dt := rfl
@[simp] theorem State.loadRegsFrom_st (s : State) (bs : List Byte) : (s.loadRegsFrom bs).st = s.st := rfl
@[simp] theorem State.loadRegsFrom_fault (s : State) (bs : List Byte) : (s.loadRegsFrom bs).fault = s.fault := rfl
@[simp] theorem State.loadRegsFrom_config (s : State) (bs : List Byte) : (s.loadRegsFrom bs).config = s.config := rfl
@[simp] theorem State.loadRegsFrom_draws (s : State) (bs : List Byte) : (s.loadRegsFrom bs).draws = s.draws := rfl

/-! ## `State.goto` -/

@[simp] theorem State.goto_mem (s : State) (p : Word) : (s.goto p).mem = s.mem := rfl
@[simp] theorem State.goto_v (s : State) (p : Word) : (s.goto p).v = s.v := rfl
@[simp] theorem State.goto_I (s : State) (p : Word) : (s.goto p).I = s.I := rfl
@[simp] theorem State.goto_pc (s : State) (p : Word) : (s.goto p).pc = finalPc s.config.pcContract p := rfl
@[simp] theorem State.goto_stack (s : State) (p : Word) : (s.goto p).stack = s.stack := rfl
@[simp] theorem State.goto_sp (s : State) (p : Word) : (s.goto p).sp = s.sp := rfl
@[simp] theorem State.goto_fb (s : State) (p : Word) : (s.goto p).fb = s.fb := rfl
@[simp] theorem State.goto_key (s : State) (p : Word) : (s.goto p).key = s.key := rfl
@[simp] theorem State.goto_dt (s : State) (p : Word) : (s.goto p).dt = s.dt := rfl
@[simp] theorem State.goto_st (s : State) (p : Word) : (s.goto p).st = s.st := rfl
@[simp] theorem State.goto_fault (s : State) (p : Word) : (s.goto p).fault = s.fault := rfl
@[simp] theorem State.goto_config (s : State) (p : Word) : (s.goto p).config = s.config := rfl
@[simp] theorem State.goto_draws (s : State) (p : Word) : (s.goto p).draws = s.draws := rfl

/-! ## `State.advance` -/

@[simp] theorem State.advance_mem (s : State) : s.advance.mem = s.mem := rfl
@[simp] theorem State.advance_v (s : State) : s.advance.v = s.v := rfl
@[simp] theorem State.advance_I (s : State) : s.advance.I = s.I := rfl
@[simp] theorem State.advance_pc (s : State) : s.advance.pc = finalPc s.config.pcContract (s.pc + 2) := rfl
@[simp] theorem State.advance_stack (s : State) : s.advance.stack = s.stack := rfl
@[simp] theorem State.advance_sp (s : State) : s.advance.sp = s.sp := rfl
@[simp] theorem State.advance_fb (s : State) : s.advance.fb = s.fb := rfl
@[simp] theorem State.advance_key (s : State) : s.advance.key = s.key := rfl
@[simp] theorem State.advance_dt (s : State) : s.advance.dt = s.dt := rfl
@[simp] theorem State.advance_st (s : State) : s.advance.st = s.st := rfl
@[simp] theorem State.advance_fault (s : State) : s.advance.fault = s.fault := rfl
@[simp] theorem State.advance_config (s : State) : s.advance.config = s.config := rfl
@[simp] theorem State.advance_draws (s : State) : s.advance.draws = s.draws := rfl

/-! ## `State.skipIf` -/

@[simp] theorem State.skipIf_mem (s : State) (c : Bool) : (s.skipIf c).mem = s.mem := rfl
@[simp] theorem State.skipIf_v (s : State) (c : Bool) : (s.skipIf c).v = s.v := rfl
@[simp] theorem State.skipIf_I (s : State) (c : Bool) : (s.skipIf c).I = s.I := rfl
@[simp] theorem State.skipIf_pc (s : State) (c : Bool) : (s.skipIf c).pc = finalPc s.config.pcContract (if c then s.pc + 4 else s.pc + 2) := rfl
@[simp] theorem State.skipIf_stack (s : State) (c : Bool) : (s.skipIf c).stack = s.stack := rfl
@[simp] theorem State.skipIf_sp (s : State) (c : Bool) : (s.skipIf c).sp = s.sp := rfl
@[simp] theorem State.skipIf_fb (s : State) (c : Bool) : (s.skipIf c).fb = s.fb := rfl
@[simp] theorem State.skipIf_key (s : State) (c : Bool) : (s.skipIf c).key = s.key := rfl
@[simp] theorem State.skipIf_dt (s : State) (c : Bool) : (s.skipIf c).dt = s.dt := rfl
@[simp] theorem State.skipIf_st (s : State) (c : Bool) : (s.skipIf c).st = s.st := rfl
@[simp] theorem State.skipIf_fault (s : State) (c : Bool) : (s.skipIf c).fault = s.fault := rfl
@[simp] theorem State.skipIf_config (s : State) (c : Bool) : (s.skipIf c).config = s.config := rfl
@[simp] theorem State.skipIf_draws (s : State) (c : Bool) : (s.skipIf c).draws = s.draws := rfl

/-! ## `raise` -/

@[simp] theorem raise_mem (c : FaultCause) (w : Option Word) (s : State) : (raise c w s).mem = s.mem := rfl
@[simp] theorem raise_v (c : FaultCause) (w : Option Word) (s : State) : (raise c w s).v = s.v := rfl
@[simp] theorem raise_I (c : FaultCause) (w : Option Word) (s : State) : (raise c w s).I = s.I := rfl
@[simp] theorem raise_pc (c : FaultCause) (w : Option Word) (s : State) : (raise c w s).pc = s.pc := rfl
@[simp] theorem raise_stack (c : FaultCause) (w : Option Word) (s : State) : (raise c w s).stack = s.stack := rfl
@[simp] theorem raise_sp (c : FaultCause) (w : Option Word) (s : State) : (raise c w s).sp = s.sp := rfl
@[simp] theorem raise_fb (c : FaultCause) (w : Option Word) (s : State) : (raise c w s).fb = s.fb := rfl
@[simp] theorem raise_key (c : FaultCause) (w : Option Word) (s : State) : (raise c w s).key = s.key := rfl
@[simp] theorem raise_dt (c : FaultCause) (w : Option Word) (s : State) : (raise c w s).dt = s.dt := rfl
@[simp] theorem raise_st (c : FaultCause) (w : Option Word) (s : State) : (raise c w s).st = s.st := rfl
@[simp] theorem raise_fault (c : FaultCause) (w : Option Word) (s : State) : (raise c w s).fault = some { cause := c, pc := s.pc, word := w } := rfl
@[simp] theorem raise_config (c : FaultCause) (w : Option Word) (s : State) : (raise c w s).config = s.config := rfl
@[simp] theorem raise_draws (c : FaultCause) (w : Option Word) (s : State) : (raise c w s).draws = s.draws := rfl

end Sys2Proof.Machine
end

