-- ==== Sys2Proof/Laws/Display.lean ====
section
/-! SUPPORT. What the XOR engine does to a framebuffer (44_display.md R131, R133). -/

namespace Sys2Proof.Machine

/-- A cell after a toggle. -/
theorem Framebuffer.pixel_toggle (fb : Framebuffer) (x px : Fin 64) (y py : Fin 32) :
    (fb.toggle x y).pixel px py = if px = x ∧ py = y then !fb.pixel px py else fb.pixel px py := by
  simp only [Framebuffer.pixel, Framebuffer.toggle, Vector.get_eq_getElem, Vector.getElem_set, Fin.ext_iff]
  by_cases hy : y.val = py.val
  · have : y = py := Fin.ext hy
    subst this
    by_cases hx : x.val = px.val
    · have : x = px := Fin.ext hx
      subst this
      simp
    · simp [hx, Ne.symm hx]
  · simp [hy, Ne.symm hy]

@[simp] theorem Framebuffer.pixel_clear (x : Fin 64) (y : Fin 32) : Framebuffer.clear.pixel x y = false := by
  simp [Framebuffer.pixel, Framebuffer.clear, Vector.get_eq_getElem]

/-- A cell after one sprite bit. -/
theorem pixel_xorBit (bit : Bool) (x px : Fin 64) (y py : Fin 32) (d : Framebuffer × Bool) :
    (xorBit bit x y d).1.pixel px py = (d.1.pixel px py ^^ (bit && decide (px = x ∧ py = y))) := by
  cases bit <;> simp only [xorBit, Bool.false_eq_true, if_false, if_true, Framebuffer.pixel_toggle]
  · simp
  · by_cases h : px = x ∧ py = y <;> simp [h]

/-- The collision after one sprite bit. -/
theorem collision_xorBit (bit : Bool) (x : Fin 64) (y : Fin 32) (d : Framebuffer × Bool) :
    (xorBit bit x y d).2 = (d.2 || (bit && d.1.pixel x y)) := by
  cases bit <;> simp [xorBit]

/-- The set bits of columns `c` to `c + n - 1` of one sprite row that land on a cell. -/
def rowHits (vx vy : Byte) (r : Nat) (b : Byte) (c n : Nat) (px : Fin 64) (py : Fin 32) : Prop :=
  ∃ k, c ≤ k ∧ k < c + n ∧ spriteBit b k = true ∧ px = screenColumn vx k ∧ py = screenRow vy r

/-- Columns `c` to `c + n - 1 ≤ 7` of a sprite row reach distinct cells, so a cell is toggled exactly when some set bit
lands on it, and the collision is noted exactly when such a cell was set. -/
theorem xorColumns_spec (vx vy : Byte) (r : Nat) (b : Byte) (c n : Nat) (hn : c + n ≤ 8) (d : Framebuffer × Bool) :
    (∀ px py, ((xorColumns vx vy r b c n d).1.pixel px py = true ↔
      ((d.1.pixel px py = true ∧ ¬ rowHits vx vy r b c n px py) ∨
        (d.1.pixel px py = false ∧ rowHits vx vy r b c n px py)))) ∧
    ((xorColumns vx vy r b c n d).2 = true ↔
      (d.2 = true ∨ ∃ px py, rowHits vx vy r b c n px py ∧ d.1.pixel px py = true)) := by
  induction n generalizing c d with
  | zero =>
    have hno : ∀ px py, ¬ rowHits vx vy r b c 0 px py := by
      rintro px py ⟨k, h1, h2, -⟩
      omega
    exact ⟨fun px py => by simp [xorColumns, hno px py], by simp [xorColumns, hno]⟩
  | succ n ih =>
    have hcell : ∀ px py, rowHits vx vy r b c (n + 1) px py ↔
        ((spriteBit b c = true ∧ px = screenColumn vx c ∧ py = screenRow vy r) ∨
          rowHits vx vy r b (c + 1) n px py) := by
      intro px py
      constructor
      · rintro ⟨k, h1, h2, h3, h4, h5⟩
        by_cases hk : k = c
        · exact .inl ⟨hk ▸ h3, hk ▸ h4, h5⟩
        · exact .inr ⟨k, by omega, by omega, h3, h4, h5⟩
      · rintro (⟨h3, h4, h5⟩ | ⟨k, h1, h2, h3, h4, h5⟩)
        · exact ⟨c, by omega, by omega, h3, h4, h5⟩
        · exact ⟨k, by omega, by omega, h3, h4, h5⟩
    have hdisj : ∀ py, ¬ rowHits vx vy r b (c + 1) n (screenColumn vx c) py := by
      rintro py ⟨k, h1, h2, -, h4, -⟩
      have := congrArg Fin.val h4
      simp only [screenColumn, Fin.ofNat] at this
      omega
    obtain ⟨hp, hc⟩ := ih (c + 1) (by omega) (xorBit (spriteBit b c) (screenColumn vx c) (screenRow vy r) d)
    refine ⟨fun px py => ?_, ?_⟩
    · rw [show xorColumns vx vy r b c (n + 1) d = xorColumns vx vy r b (c + 1) n
        (xorBit (spriteBit b c) (screenColumn vx c) (screenRow vy r) d) from rfl, hp, pixel_xorBit, hcell]
      by_cases hx : px = screenColumn vx c
      · subst hx
        have := hdisj py
        by_cases hb : spriteBit b c = true <;> by_cases hy : py = screenRow vy r <;>
          cases hd : d.1.pixel (screenColumn vx c) py <;> simp_all
      · cases hd : d.1.pixel px py <;> simp [hx]
    · rw [show xorColumns vx vy r b c (n + 1) d = xorColumns vx vy r b (c + 1) n
        (xorBit (spriteBit b c) (screenColumn vx c) (screenRow vy r) d) from rfl, hc, collision_xorBit]
      constructor
      · rintro (h | ⟨px, py, hh, hpix⟩)
        · rcases Bool.or_eq_true _ _ ▸ h with h | h
          · exact .inl h
          · simp only [Bool.and_eq_true] at h
            exact .inr ⟨_, _, (hcell _ _).mpr (.inl ⟨h.1, rfl, rfl⟩), h.2⟩
        · refine .inr ⟨px, py, (hcell _ _).mpr (.inr hh), ?_⟩
          have hx : px ≠ screenColumn vx c := fun h => hdisj py (h ▸ hh)
          simpa [pixel_xorBit, hx] using hpix
      · rintro (h | ⟨px, py, hh, hpix⟩)
        · simp [h]
        · rcases (hcell _ _).mp hh with ⟨hb, rfl, rfl⟩ | hh'
          · simp [hb, hpix]
          · refine .inr ⟨px, py, hh', ?_⟩
            have hx : px ≠ screenColumn vx c := fun h => hdisj py (h ▸ hh')
            simp [pixel_xorBit, hx, hpix]

/-- The set bits of a sprite, its first row at sprite row `r`, that land on a cell. -/
def spriteRowsHit (vx vy : Byte) (r : Nat) (rows : List Byte) (px : Fin 64) (py : Fin 32) : Prop :=
  ∃ k c, k < rows.length ∧ c < 8 ∧ spriteBit (rows.getD k 0) c = true ∧
    px = screenColumn vx c ∧ py = screenRow vy (r + k)

/-- Toggling where `A` holds and then where `B` holds, never both, toggles where either holds. -/
theorem toggled_twice_iff (P A B : Prop) (h : A → ¬ B) :
    ((P ∧ ¬ A ∨ ¬ P ∧ A) ∧ ¬ B ∨ ¬ (P ∧ ¬ A ∨ ¬ P ∧ A) ∧ B) ↔ (P ∧ ¬ (A ∨ B) ∨ ¬ P ∧ (A ∨ B)) := by
  by_cases P <;> by_cases A <;> by_cases B <;> simp_all

/-- The sprite rows `r` to `r + rows.length - 1` reach distinct screen rows (at most 32 of them), so a cell is toggled
exactly when some set bit lands on it, and the collision is noted exactly when such a cell was set. -/
theorem xorRows_spec (vx vy : Byte) (r : Nat) (rows : List Byte) (hn : rows.length ≤ 32) (d : Framebuffer × Bool) :
    (∀ px py, ((xorRows vx vy r rows d).1.pixel px py = true ↔
      ((d.1.pixel px py = true ∧ ¬ spriteRowsHit vx vy r rows px py) ∨
        (d.1.pixel px py = false ∧ spriteRowsHit vx vy r rows px py)))) ∧
    ((xorRows vx vy r rows d).2 = true ↔
      (d.2 = true ∨ ∃ px py, spriteRowsHit vx vy r rows px py ∧ d.1.pixel px py = true)) := by
  induction rows generalizing r d with
  | nil =>
    have hno : ∀ px py, ¬ spriteRowsHit vx vy r [] px py := by
      rintro px py ⟨k, c, h1, -⟩
      simp at h1
    exact ⟨fun px py => by simp [xorRows, hno px py], by simp [xorRows, hno]⟩
  | cons b rest ih =>
    simp only [List.length_cons] at hn
    have hcell : ∀ px py, spriteRowsHit vx vy r (b :: rest) px py ↔
        (rowHits vx vy r b 0 8 px py ∨ spriteRowsHit vx vy (r + 1) rest px py) := by
      intro px py
      constructor
      · rintro ⟨k, c, h1, h2, h3, h4, h5⟩
        cases k with
        | zero => exact .inl ⟨c, by omega, by omega, h3, h4, h5⟩
        | succ k =>
          exact .inr ⟨k, c, by simpa using h1, h2, h3, h4, by rw [h5, show r + (k + 1) = r + 1 + k by omega]⟩
      · rintro (⟨c, h1, h2, h3, h4, h5⟩ | ⟨k, c, h1, h2, h3, h4, h5⟩)
        · exact ⟨0, c, by simp, by omega, h3, h4, h5⟩
        · exact ⟨k + 1, c, by simpa using h1, h2, h3, h4, by rw [h5, show r + (k + 1) = r + 1 + k by omega]⟩
    have hdisj : ∀ px py, rowHits vx vy r b 0 8 px py → ¬ spriteRowsHit vx vy (r + 1) rest px py := by
      rintro px py ⟨c, -, -, -, -, h5⟩ ⟨k, c', h1, -, -, -, h5'⟩
      have := congrArg Fin.val (h5.symm.trans h5')
      simp only [screenRow, Fin.ofNat] at this
      omega
    obtain ⟨hp, hc⟩ := ih (r + 1) (by omega) (xorColumns vx vy r b 0 8 d)
    obtain ⟨hp', hc'⟩ := xorColumns_spec vx vy r b 0 8 (by omega) d
    refine ⟨fun px py => ?_, ?_⟩
    · rw [xorRows, hp, hcell]
      rw [← Bool.not_eq_true, hp', ← Bool.not_eq_true]
      exact toggled_twice_iff _ _ _ (hdisj px py)
    · rw [xorRows, hc, hc']
      constructor
      · rintro ((h | ⟨px, py, hh, hpix⟩) | ⟨px, py, hh, hpix⟩)
        · exact .inl h
        · exact .inr ⟨px, py, (hcell _ _).mpr (.inl hh), hpix⟩
        · refine .inr ⟨px, py, (hcell _ _).mpr (.inr hh), ?_⟩
          rcases (hp' px py).mp hpix with ⟨h, -⟩ | ⟨-, h⟩
          · exact h
          · exact absurd hh (hdisj _ _ h)
      · rintro (h | ⟨px, py, hh, hpix⟩)
        · exact .inl (.inl h)
        · rcases (hcell _ _).mp hh with hh | hh
          · exact .inl (.inr ⟨px, py, hh, hpix⟩)
          · refine .inr ⟨px, py, hh, (hp' px py).mpr (.inl ⟨hpix, fun h => hdisj _ _ h hh⟩)⟩

end Sys2Proof.Machine
end

