-- ==== Sys2Proof/Laws/Memory.lean ====
section
/-! SUPPORT. What reading and writing memory do: read after write, the canonical form, and the two block operations
(20_memory.md). -/

namespace Sys2Proof.Machine

/-! ## Read after write -/

theorem Memory.read_erase (m : Memory) (a b : Nat) :
    (m.erase a).read b = if b = a then resetByte b else m.read b := by
  induction m with
  | nil => simp [Memory.erase, Memory.read]
  | cons e rest ih =>
    obtain ⟨k, c⟩ := e
    by_cases hk : k = a
    · subst hk
      simp only [Memory.erase, if_true, ih, Memory.read]
      split <;> simp_all
    · simp only [Memory.erase, if_neg hk, Memory.read, ih]
      split <;> split <;> simp_all

theorem Memory.read_insert (m : Memory) (a : Nat) (b : Byte) (x : Nat)
    (hno : ∀ e ∈ m, e.1 ≠ a) : (m.insert a b).read x = if x = a then b else m.read x := by
  induction m with
  | nil => rfl
  | cons e rest ih =>
    obtain ⟨k, c⟩ := e
    have hk : k ≠ a := hno (k, c) (by simp)
    have ih := ih (fun e he => hno e (by simp [he]))
    simp only [Memory.insert]
    split
    · simp [Memory.read]
    · simp only [Memory.read, ih]
      split <;> split <;> simp_all

theorem Memory.not_mem_erase (m : Memory) (a : Nat) : ∀ e ∈ m.erase a, e.1 ≠ a := by
  induction m with
  | nil => simp [Memory.erase]
  | cons e rest ih =>
    obtain ⟨k, c⟩ := e
    simp only [Memory.erase]
    split
    · exact ih
    · intro e he
      rcases List.mem_cons.mp he with rfl | he
      · assumption
      · exact ih e he

/-- Reading after writing: the byte written at its address, the old byte everywhere else. -/
@[simp] theorem Memory.read_write (m : Memory) (a : Nat) (b : Byte) (x : Nat) :
    (m.write a b).read x = if x = a then b else m.read x := by
  simp only [Memory.write]
  split
  · rename_i h
    rw [Memory.read_erase]
    split <;> simp_all
  · rw [Memory.read_insert _ _ _ _ (Memory.not_mem_erase m a), Memory.read_erase]
    split <;> simp_all

/-- Reading after writing a list of bytes: the list's byte inside it, the old byte outside. -/
theorem Memory.read_writeBytes (m : Memory) (a : Nat) (bs : List Byte) (x : Nat) :
    (m.writeBytes a bs).read x = if a ≤ x ∧ x < a + bs.length then bs.getD (x - a) 0 else m.read x := by
  induction bs generalizing m a with
  | nil =>
    simp only [Memory.writeBytes, List.length_nil]
    rw [if_neg (by omega)]
  | cons b rest ih =>
    simp only [Memory.writeBytes, ih, Memory.read_write, List.length_cons]
    by_cases hx : x = a
    · subst hx
      rw [if_neg (by omega), if_pos (by omega)]
      simp
    · by_cases h : a + 1 ≤ x ∧ x < a + 1 + rest.length
      · rw [if_pos h, if_pos (by omega), show x - a = (x - (a + 1)) + 1 by omega]
        rfl
      · rw [if_neg h, if_neg hx, if_neg (by omega)]

/-! ## The canonical form -/

theorem Memory.wfFrom_mono {lo lo' : Nat} (h : lo' ≤ lo) {m : Memory} (hm : Memory.wfFrom lo m) :
    Memory.wfFrom lo' m := by
  cases m with
  | nil => rfl
  | cons e rest =>
    simp only [Memory.wfFrom, Bool.and_eq_true, decide_eq_true_eq] at hm ⊢
    exact ⟨⟨⟨by omega, hm.1.1.2⟩, hm.1.2⟩, hm.2⟩

theorem Memory.wfFrom_erase {lo : Nat} {m : Memory} (hm : Memory.wfFrom lo m) (a : Nat) :
    Memory.wfFrom lo (m.erase a) := by
  induction m generalizing lo with
  | nil => rfl
  | cons e rest ih =>
    obtain ⟨k, c⟩ := e
    simp only [Memory.wfFrom, Bool.and_eq_true, decide_eq_true_eq] at hm
    have ih := ih hm.2
    simp only [Memory.erase]
    split
    · exact Memory.wfFrom_mono (by omega) ih
    · simp only [Memory.wfFrom, Bool.and_eq_true, decide_eq_true_eq]
      exact ⟨hm.1, ih⟩

theorem Memory.wfFrom_insert {lo : Nat} {m : Memory} (hm : Memory.wfFrom lo m) {a : Nat} {b : Byte} (hlo : lo ≤ a)
    (ha : a < memSize) (hb : b ≠ resetByte a) (hno : ∀ e ∈ m, e.1 ≠ a) : Memory.wfFrom lo (m.insert a b) := by
  induction m generalizing lo with
  | nil => simp [Memory.insert, Memory.wfFrom, hlo, ha, hb]
  | cons e rest ih =>
    obtain ⟨k, c⟩ := e
    have hk : k ≠ a := hno (k, c) (by simp)
    simp only [Memory.wfFrom, Bool.and_eq_true, decide_eq_true_eq] at hm
    simp only [Memory.insert]
    split
    · simp only [Memory.wfFrom, Bool.and_eq_true, decide_eq_true_eq, bne_iff_ne]
      exact ⟨⟨⟨hlo, ha⟩, hb⟩, ⟨⟨by omega, hm.1.1.2⟩, by simpa using hm.1.2⟩, hm.2⟩
    · simp only [Memory.wfFrom, Bool.and_eq_true, decide_eq_true_eq]
      exact ⟨hm.1, ih hm.2 (by omega) (fun e he => hno e (by simp [he]))⟩

/-- A write inside the address space keeps the canonical form. -/
theorem Memory.wf_write {m : Memory} (hm : m.wf) {a : Nat} (ha : a < memSize) (b : Byte) : (m.write a b).wf := by
  simp only [Memory.write]
  split
  · exact Memory.wfFrom_erase hm a
  · rename_i hb
    exact Memory.wfFrom_insert (Memory.wfFrom_erase hm a) (by omega) ha hb (Memory.not_mem_erase m a)

/-- A list of bytes written inside the address space keeps the canonical form. -/
theorem Memory.wf_writeBytes {m : Memory} (hm : m.wf) {a : Nat} {bs : List Byte} (h : a + bs.length ≤ memSize) :
    (m.writeBytes a bs).wf := by
  induction bs generalizing m a with
  | nil => exact hm
  | cons b rest ih =>
    simp only [List.length_cons] at h
    exact ih (Memory.wf_write hm (by omega) b) (by omega)

/-- A bounded write that answers a memory keeps the canonical form. -/
theorem memWrite_wf {m m' : Memory} (hm : m.wf) {a : Nat} {b : Byte} (h : memWrite m a b = .ok m') : m'.wf := by
  unfold memWrite at h
  split at h <;> cases h
  exact Memory.wf_write hm (by assumption) b

/-- The reset memory lists nothing. -/
theorem State.reset_mem_wf : State.reset.mem.wf := rfl

theorem Memory.read_below {lo : Nat} {m : Memory} (hm : Memory.wfFrom lo m) {a : Nat} (ha : a < lo) :
    m.read a = resetByte a := by
  induction m generalizing lo with
  | nil => rfl
  | cons e rest ih =>
    obtain ⟨k, c⟩ := e
    simp only [Memory.wfFrom, Bool.and_eq_true, decide_eq_true_eq] at hm
    rw [Memory.read, if_neg (by omega), ih hm.2 (by omega)]

/-- Two memories in the canonical form that read the same everywhere are equal data. -/
theorem Memory.ext_of_read {lo : Nat} {m m' : Memory} (hm : Memory.wfFrom lo m) (hm' : Memory.wfFrom lo m')
    (h : ∀ a, m.read a = m'.read a) : m = m' := by
  induction m generalizing m' lo with
  | nil =>
    cases m' with
    | nil => rfl
    | cons e rest =>
      obtain ⟨k, c⟩ := e
      simp only [Memory.wfFrom, Bool.and_eq_true, decide_eq_true_eq, bne_iff_ne] at hm'
      have := h k
      simp only [Memory.read, if_true] at this
      exact absurd this.symm hm'.1.2
  | cons e rest ih =>
    obtain ⟨k, c⟩ := e
    cases m' with
    | nil =>
      simp only [Memory.wfFrom, Bool.and_eq_true, decide_eq_true_eq, bne_iff_ne] at hm
      have := h k
      simp only [Memory.read, if_true] at this
      exact absurd this hm.1.2
    | cons e' rest' =>
      obtain ⟨k', c'⟩ := e'
      have hw := hm
      have hw' := hm'
      simp only [Memory.wfFrom, Bool.and_eq_true, decide_eq_true_eq, bne_iff_ne] at hm hm'
      have hkk : k = k' := by
        rcases Nat.lt_trichotomy k k' with hlt | heq | hgt
        · have h1 := h k
          rw [Memory.read, if_pos rfl, Memory.read, if_neg (by omega), Memory.read_below hm'.2 (by omega)] at h1
          exact absurd h1 hm.1.2
        · exact heq
        · have h1 := h k'
          rw [Memory.read, if_neg (by omega), Memory.read_below hm.2 (by omega), Memory.read, if_pos rfl] at h1
          exact absurd h1.symm hm'.1.2
      subst hkk
      have hc : c = c' := by simpa [Memory.read] using h k
      subst hc
      have : rest = rest' := by
        refine ih hm.2 hm'.2 (fun a => ?_)
        by_cases ha : a = k
        · subst ha
          rw [Memory.read_below hm.2 (by omega), Memory.read_below hm'.2 (by omega)]
        · simpa [Memory.read, ha] using h a
      rw [this]

/-! ## Bounded accesses -/

/-- What a block read answers: the bytes where every address is inside the space, else the lowest one outside. -/
theorem readBlock_cases (m : Memory) (a n : Nat) :
    ((∀ k, k < n → a + k < memSize) ∧
      ∃ bs, readBlock m a n = .ok bs ∧ bs.length = n ∧ ∀ k, k < n → bs.getD k 0 = m.read (a + k)) ∨
    (∃ k, k < n ∧ memSize ≤ a + k ∧ (∀ j, j < k → a + j < memSize) ∧
      readBlock m a n = .error (.memoryBounds (a + k))) := by
  induction n generalizing a with
  | zero => exact .inl ⟨by omega, [], rfl, rfl, by omega⟩
  | succ n ih =>
    by_cases ha : a < memSize
    · rcases ih (a + 1) with ⟨hin, bs, hbs, hlen, hget⟩ | ⟨k, hk, hout, hlow, herr⟩
      · refine .inl ⟨fun k hk => ?_, m.read a :: bs, ?_, by simp [hlen], fun k hk => ?_⟩
        · cases k with
          | zero => exact ha
          | succ k => have := hin k (by omega); omega
        · simp [readBlock, memRead, ha, hbs]
        · cases k with
          | zero => simp
          | succ k =>
            have := hget k (by omega)
            rw [show a + (k + 1) = a + 1 + k by omega, ← this]
            rfl
      · refine .inr ⟨k + 1, by omega, by omega, fun j hj => ?_, ?_⟩
        · cases j with
          | zero => exact ha
          | succ j => have := hlow j (by omega); omega
        · simp [readBlock, memRead, ha, herr, show a + (k + 1) = a + 1 + k by omega]
    · exact .inr ⟨0, by omega, by omega, by omega, by simp [readBlock, memRead, ha]⟩

/-- What a block write answers: the memory with the bytes in it where every address is inside the space, else the
lowest one outside. -/
theorem writeBlock_cases (m : Memory) (a : Nat) (bs : List Byte) :
    ((∀ k, k < bs.length → a + k < memSize) ∧ writeBlock m a bs = .ok (m.writeBytes a bs)) ∨
    (∃ k, k < bs.length ∧ memSize ≤ a + k ∧ (∀ j, j < k → a + j < memSize) ∧
      writeBlock m a bs = .error (.memoryBounds (a + k))) := by
  induction bs generalizing m a with
  | nil => exact .inl ⟨by simp, rfl⟩
  | cons b rest ih =>
    by_cases ha : a < memSize
    · rcases ih (m.write a b) (a + 1) with ⟨hin, hok⟩ | ⟨k, hk, hout, hlow, herr⟩
      · refine .inl ⟨fun k hk => ?_, by simp [writeBlock, memWrite, ha, hok, Memory.writeBytes]⟩
        cases k with
        | zero => exact ha
        | succ k => have := hin k (by simpa using hk); omega
      · refine .inr ⟨k + 1, by simpa using hk, by omega, fun j hj => ?_, ?_⟩
        · cases j with
          | zero => exact ha
          | succ j => have := hlow j (by omega); omega
        · simp [writeBlock, memWrite, ha, herr, show a + (k + 1) = a + 1 + k by omega]
    · exact .inr ⟨0, by simp, by omega, by omega, by simp [writeBlock, memWrite, ha]⟩

/-- A block write that answers a memory keeps the canonical form. -/
theorem writeBlock_wf {m m' : Memory} (hm : m.wf) {a : Nat} {bs : List Byte} (h : writeBlock m a bs = .ok m') :
    m'.wf := by
  induction bs generalizing m a with
  | nil => simpa [writeBlock] using (by simpa [writeBlock] using h : m = m') ▸ hm
  | cons b rest ih =>
    by_cases ha : a < memSize
    · simp only [writeBlock, memWrite, if_pos ha] at h
      exact ih (Memory.wf_write hm ha b) h
    · simp [writeBlock, memWrite, ha] at h

end Sys2Proof.Machine
end

