-- ==== Sys2Proof/Laws/Registers.lean ====
section
/-! SUPPORT. What the operations over registers, stack and keypad do (10_state.md R21 to R23, R26, R27, R29). -/

namespace Sys2Proof.Machine

/-! ## Registers -/

/-- A register after a register write. -/
theorem State.reg_setReg (s : State) (r : RegIdx) (b : Byte) (q : RegIdx) :
    (s.setReg r b).reg q = if q = r then b else s.reg q := by
  simp only [State.reg, State.setReg_v, Vector.get_eq_getElem, Vector.getElem_set, Fin.ext_iff]
  split <;> split <;> first | rfl | omega

@[simp] theorem State.reg_setReg_same (s : State) (r : RegIdx) (b : Byte) : (s.setReg r b).reg r = b := by
  simp [State.reg_setReg]

theorem State.reg_setReg_other (s : State) {r q : RegIdx} (b : Byte) (h : q ≠ r) : (s.setReg r b).reg q = s.reg q := by
  simp [State.reg_setReg, h]

/-- A register after a write of the flag register. -/
theorem State.reg_setFlag (s : State) (f : Bool) (q : RegIdx) :
    (s.setFlag f).reg q = if q = 0xF then flagByte f else s.reg q := State.reg_setReg s 0xF (flagByte f) q

@[simp] theorem State.reg_goto (s : State) (p : Word) (q : RegIdx) : (s.goto p).reg q = s.reg q := rfl
@[simp] theorem State.reg_advance (s : State) (q : RegIdx) : s.advance.reg q = s.reg q := rfl
@[simp] theorem State.reg_skipIf (s : State) (c : Bool) (q : RegIdx) : (s.skipIf c).reg q = s.reg q := rfl
@[simp] theorem State.reg_raise (c : FaultCause) (w : Option Word) (s : State) (q : RegIdx) :
    (raise c w s).reg q = s.reg q := rfl

/-- The list of `V0` to `Vx` has `x + 1` bytes. -/
@[simp] theorem State.length_regsUpTo (s : State) (x : RegIdx) : (s.regsUpTo x).length = x.val + 1 := by
  simp [State.regsUpTo, List.length_take]

/-- The byte of the list of `V0` to `Vx` at `k` is `Vk`. -/
theorem State.getD_regsUpTo (s : State) (x : RegIdx) (k : RegIdx) (h : k ≤ x) : (s.regsUpTo x).getD k.val 0 = s.reg k := by
  have hk : k.val < x.val + 1 := Nat.lt_succ_of_le h
  simp [State.regsUpTo, List.getD_eq_getElem?_getD, hk, State.reg, Vector.get_eq_getElem]

/-- A register after registers from `k` up have been written with a list. -/
theorem get_writeRegs (v : Vector Byte 16) (k : Nat) (bs : List Byte) (q : RegIdx) :
    (writeRegs v k bs).get q = if k ≤ q.val ∧ q.val < k + bs.length then bs.getD (q.val - k) 0 else v.get q := by
  induction bs generalizing v k with
  | nil =>
    rw [if_neg (by simp only [List.length_nil]; omega)]
    rfl
  | cons b rest ih =>
    simp only [writeRegs, ih, List.length_cons]
    by_cases hq : q.val = k
    · rw [if_neg (by omega), if_pos (by omega)]
      have hk : k < 16 := hq ▸ q.isLt
      simp [Vector.get_eq_getElem, hq, Vector.setIfInBounds, Vector.getElem_mk]
    · by_cases h : k + 1 ≤ q.val ∧ q.val < k + 1 + rest.length
      · rw [if_pos h, if_pos (by omega), show q.val - k = (q.val - (k + 1)) + 1 by omega]
        rfl
      · rw [if_neg h, if_neg (by omega)]
        simp only [Vector.get_eq_getElem, Vector.getElem_setIfInBounds]
        rw [if_neg (by omega)]

/-- A register after a block load. -/
theorem State.reg_loadRegsFrom (s : State) (bs : List Byte) (q : RegIdx) :
    (s.loadRegsFrom bs).reg q = if q.val < bs.length then bs.getD q.val 0 else s.reg q := by
  simp [State.reg, State.loadRegsFrom, get_writeRegs]

/-! ## Stack -/

/-- What a push answers. -/
theorem State.push_cases (s : State) (w : Word) :
    (s.sp.val < 16 ∧ ∃ t, s.push w = .ok t ∧ t.sp.val = s.sp.val + 1 ∧
      (∀ k : Fin 16, t.stack.get k = if k.val = s.sp.val then w else s.stack.get k) ∧
      t = { s with stack := t.stack, sp := t.sp }) ∨
    (s.sp.val = 16 ∧ s.push w = .error .stackOverflow) := by
  by_cases h : s.sp.val < 16
  · refine .inl ⟨h, _, dif_pos h, rfl, fun k => ?_, rfl⟩
    simp only [Vector.get_eq_getElem, Vector.getElem_set]
    split <;> split <;> first | rfl | omega
  · exact .inr ⟨by have := s.sp.isLt; omega, dif_neg h⟩

/-- What a pop answers. -/
theorem State.pop_cases (s : State) :
    (∃ (k : Fin 16) (t : State), s.sp.val = k.val + 1 ∧ s.pop = .ok (s.stack.get k, t) ∧ t.sp.val = k.val ∧
      t = { s with sp := t.sp }) ∨
    (s.sp.val = 0 ∧ s.pop = .error .stackUnderflow) := by
  by_cases h : s.sp.val = 0
  · exact .inr ⟨h, dif_pos h⟩
  · have hlt := s.sp.isLt
    exact .inl ⟨⟨s.sp.val - 1, by omega⟩, _, by simp only; omega, dif_neg h, rfl, rfl⟩

/-! ## Keypad -/

/-- Some key is pressed. -/
theorem State.anyKey_iff (s : State) : s.anyKey = true ↔ ∃ k, s.keyAt k = true := by
  simp only [State.anyKey, State.keyAt, List.any_eq_true, id, Vector.mem_toList_iff, Vector.mem_iff_getElem,
    Vector.get_eq_getElem]
  constructor
  · rintro ⟨b, ⟨i, hi, rfl⟩, hb⟩
    exact ⟨⟨i, hi⟩, hb⟩
  · rintro ⟨k, hk⟩
    exact ⟨true, ⟨k.val, k.isLt, hk⟩, rfl⟩

/-- No key is pressed. -/
theorem State.anyKey_eq_false_iff (s : State) : s.anyKey = false ↔ ∀ k, s.keyAt k = false := by
  rw [← Bool.not_eq_true, State.anyKey_iff]
  simp

/-- What reading the key that a value names answers. -/
theorem State.keyOf_cases (s : State) (vx : Byte) :
    (∃ k : Fin 16, vx.toNat = k.val ∧ s.keyOf vx = .ok (s.keyAt k)) ∨
    (16 ≤ vx.toNat ∧ s.keyOf vx = .error (.keyIndexRange vx)) := by
  by_cases h : vx.toNat < 16
  · exact .inl ⟨⟨vx.toNat, h⟩, rfl, dif_pos h⟩
  · exact .inr ⟨by omega, dif_neg h⟩

end Sys2Proof.Machine
end

