-- ==== Sys2Proof/Laws/Frames.lean ====
section
/-! SUPPORT. What each shared operation leaves unchanged, and how frames compose. -/

namespace Sys2Proof.Machine

/-! ## Frames compose -/

theorem Part.Same.refl (p : Part) (s : State) : p.Same s s := by cases p <;> rfl

theorem Part.Same.trans {p : Part} {s t u : State} (h : p.Same s t) (h' : p.Same t u) : p.Same s u := by
  cases p <;> simp only [Part.Same] at * <;> rw [h', h]

theorem OnlyChanges.refl (w : Part → Prop) (s : State) : OnlyChanges w s s := fun p _ => Part.Same.refl p s

theorem OnlyChanges.mono {w w' : Part → Prop} {s t : State} (h : OnlyChanges w s t) (hw : ∀ p, w p → w' p) :
    OnlyChanges w' s t := fun p hp => h p (fun hp' => hp (hw p hp'))

theorem OnlyChanges.trans {w w' : Part → Prop} {s t u : State} (h : OnlyChanges w s t) (h' : OnlyChanges w' t u) :
    OnlyChanges (fun p => w p ∨ w' p) s u :=
  fun p hp => (h p (fun hw => hp (.inl hw))).trans (h' p (fun hw => hp (.inr hw)))

/-! ## One frame for each update -/

theorem State.setReg_frame (s : State) (r : RegIdx) (b : Byte) : OnlyChanges (· = .reg r) s (s.setReg r b) := by
  intro p hp
  cases p with
  | reg q => exact State.reg_setReg_other s b (fun h => hp (h ▸ rfl))
  | _ => rfl

theorem State.setFlag_frame (s : State) (f : Bool) : OnlyChanges (· = .reg 0xF) s (s.setFlag f) :=
  State.setReg_frame s 0xF (flagByte f)

theorem State.goto_frame (s : State) (q : Word) : OnlyChanges (· = .pc) s (s.goto q) := by
  intro p hp
  cases p with
  | pc => exact absurd rfl hp
  | _ => rfl

theorem State.advance_frame (s : State) : OnlyChanges (· = .pc) s s.advance := State.goto_frame s (s.pc + 2)

theorem State.skipIf_frame (s : State) (c : Bool) : OnlyChanges (· = .pc) s (s.skipIf c) := State.goto_frame s _

theorem raise_frame (c : FaultCause) (w : Option Word) (s : State) : OnlyChanges (· = .fault) s (raise c w s) := by
  intro p hp
  cases p with
  | fault => exact absurd rfl hp
  | _ => rfl

theorem State.loadRegsFrom_frame (s : State) (bs : List Byte) :
    OnlyChanges (fun p => ∃ r : RegIdx, r.val < bs.length ∧ p = .reg r) s (s.loadRegsFrom bs) := by
  intro p hp
  cases p with
  | reg q =>
    simp only [Part.Same, State.reg_loadRegsFrom]
    rw [if_neg (fun h => hp ⟨q, h, rfl⟩)]
  | _ => rfl

/-- The frame of a memory replaced by one with a list of bytes written from `a` up. -/
theorem writeBytes_frame (s : State) (a : Nat) (bs : List Byte) :
    OnlyChanges (fun p => ∃ k, k < bs.length ∧ p = .mem (a + k)) s { s with mem := s.mem.writeBytes a bs } := by
  intro p hp
  cases p with
  | mem x =>
    simp only [Part.Same, Memory.read_writeBytes]
    rw [if_neg]
    rintro ⟨h1, h2⟩
    exact hp ⟨x - a, by omega, by rw [show a + (x - a) = x by omega]⟩
  | _ => rfl

/-! ## Outcomes -/

/-- What `finish` answers: the computed state, or the state before with the fault recorded. -/
theorem finish_cases (i : Instr) (s : State) (r : Except FaultCause State) :
    (∃ t, r = .ok t ∧ finish i s r = .next t) ∨
    (∃ c, r = .error c ∧ finish i s r = .next (raise c (some (encode i)) s)) := by
  cases r with
  | ok t => exact .inl ⟨t, rfl, rfl⟩
  | error c => exact .inr ⟨c, rfl, rfl⟩

/-- A recorded fault is a raised one. -/
theorem raises_of_exec {i : Instr} {s : State} {c : FaultCause}
    (h : exec i s = .next (raise c (some (encode i)) s)) : Raises i s c :=
  ⟨_, h, rfl, raise_frame _ _ _⟩

/-- Under the canonical contract the final pc is the one the instruction's rule states (40_pipeline.md R74). -/
theorem State.goto_pc_canonical {s : State} (h : s.Canonical) (p : Word) : (s.goto p).pc = p := by
  simp [h, finalPc]

/-! ## The shared meanings -/

/-- A meaning that writes one result (42_alu.md R101 to R106). -/
theorem writeResult_spec {i : Instr} {s : State} (x : RegIdx) (b : Byte)
    (h : exec i s = writeResult x b s) (hc : s.Canonical) :
    CompletesWith i s (fun p => p = .pc ∨ p = .reg x) (fun t => t.reg x = b ∧ t.pc = s.pc + 2) := by
  refine ⟨_, h, ⟨by simp, ?_⟩, ?_⟩
  · simp [finalPc, hc]
  · exact ((State.setReg_frame s x b).trans (State.advance_frame _)).mono (by tauto)

/-- A meaning that writes a result and then the flag (42_alu.md R107 to R111). -/
theorem writeResultAndFlag_spec {i : Instr} {s : State} (x : RegIdx) (b : Byte) (f : Bool)
    (h : exec i s = writeResultAndFlag x b f s) (hc : s.Canonical) :
    CompletesWith i s (fun p => p = .pc ∨ p = .reg x ∨ p = .reg 0xF)
      (fun t => (x ≠ 0xF → t.reg x = b) ∧ t.reg 0xF = flagByte f ∧ t.pc = s.pc + 2) := by
  refine ⟨_, h, ⟨fun hx => ?_, ?_, ?_⟩, ?_⟩
  · simp [State.reg_setFlag, hx]
  · simp [State.reg_setFlag]
  · simp [finalPc, hc]
  · exact (((State.setReg_frame s x b).trans (State.setFlag_frame _ f)).trans (State.advance_frame _)).mono (by tauto)

end Sys2Proof.Machine
end

