-- ==== Sys2Proof/Laws/PerInstr.lean ====
section
/-! SUPPORT. For every instruction: its word matches the row of spec/opcode_table.json that bears its name, and no row
before it. -/

namespace Sys2Proof.Laws

open Sys2Proof.Machine

/-! ## The table's masks as fields -/

theorem and_F000 (w p : Word) : (w &&& 0xF000#16 == p) = decide (fieldF w = p.toNat / 4096 ∧ 0 = p.toNat % 4096) := by
  have h : w &&& 0xF000#16 = (w >>> 12) <<< 12 := by
    apply BitVec.eq_of_getLsbD_eq
    intro i hi
    interval_cases i <;> simp
  have hw := w.isLt
  rw [Bool.eq_iff_iff, beq_iff_eq, decide_eq_true_eq, ← BitVec.toNat_inj, h, fieldF_eq]
  simp only [BitVec.toNat_shiftLeft, BitVec.toNat_ushiftRight, Nat.shiftLeft_eq, Nat.shiftRight_eq_div_pow]
  omega

theorem and_F00F (w p : Word) :
    (w &&& 0xF00F#16 == p) = decide (fieldF w = p.toNat / 4096 ∧ fieldN w = p.toNat % 4096) := by
  have h : w &&& 0xF00F#16 = (w >>> 12) <<< 12 ||| (w <<< 12) >>> 12 := by
    apply BitVec.eq_of_getLsbD_eq
    intro i hi
    interval_cases i <;> simp
  have hw := w.isLt
  have hN : (w.toNat * 4096 % 65536) / 4096 = w.toNat % 16 := by omega
  rw [Bool.eq_iff_iff, beq_iff_eq, decide_eq_true_eq, ← BitVec.toNat_inj, h, fieldF_eq, fieldN_eq]
  simp only [BitVec.toNat_or, BitVec.toNat_shiftLeft, BitVec.toNat_ushiftRight, Nat.shiftLeft_eq,
    Nat.shiftRight_eq_div_pow, Nat.reducePow, hN]
  rw [show w.toNat / 4096 * 4096 % 65536 = 2 ^ 12 * (w.toNat / 4096) by omega,
    ← Nat.two_pow_add_eq_or_of_lt (by omega)]
  omega

theorem and_F0FF (w p : Word) :
    (w &&& 0xF0FF#16 == p) = decide (fieldF w = p.toNat / 4096 ∧ (fieldNN w).toNat = p.toNat % 4096) := by
  have h : w &&& 0xF0FF#16 = (w >>> 12) <<< 12 ||| (w <<< 8) >>> 8 := by
    apply BitVec.eq_of_getLsbD_eq
    intro i hi
    interval_cases i <;> simp
  have hw := w.isLt
  have hN : (w.toNat * 256 % 65536) / 256 = w.toNat % 256 := by omega
  rw [Bool.eq_iff_iff, beq_iff_eq, decide_eq_true_eq, ← BitVec.toNat_inj, h, fieldF_eq, fieldNN_toNat]
  simp only [BitVec.toNat_or, BitVec.toNat_shiftLeft, BitVec.toNat_ushiftRight, Nat.shiftLeft_eq,
    Nat.shiftRight_eq_div_pow, Nat.reducePow, hN]
  rw [show w.toNat / 4096 * 4096 % 65536 = 2 ^ 12 * (w.toNat / 4096) by omega,
    ← Nat.two_pow_add_eq_or_of_lt (by omega)]
  omega

theorem and_FFFF (w p : Word) : (w &&& 0xFFFF#16 == p) = decide (w.toNat = p.toNat) := by
  rw [show (0xFFFF#16 : Word) = BitVec.allOnes 16 from rfl, BitVec.and_allOnes, Bool.eq_iff_iff, beq_iff_eq,
    decide_eq_true_eq, BitVec.toNat_inj]

/-- A word of a family other than 0 is neither `00E0` nor `00EE`. -/
theorem toNat_ne_of_family {w : Word} {f : Nat} (hf : fieldF w = f) (h : 0 < f) : w.toNat ≠ 224 ∧ w.toNat ≠ 238 := by
  rw [fieldF_eq] at hf
  omega

/-- The row a word of families 1 to F matches, by its family, its low nibble and its low byte. -/
theorem tableName_of_fields {w : Word} {f n nn : Nat} (hf : fieldF w = f) (hn : fieldN w = n)
    (hnn : (fieldNN w).toNat = nn) (h : 0 < f) :
    tableName w = (opcodeTable.find? (fun r =>
      if r.mask = 0xF000 then decide (f = r.pattern.toNat / 4096 ∧ 0 = r.pattern.toNat % 4096)
      else if r.mask = 0xF00F then decide (f = r.pattern.toNat / 4096 ∧ n = r.pattern.toNat % 4096)
      else if r.mask = 0xF0FF then decide (f = r.pattern.toNat / 4096 ∧ nn = r.pattern.toNat % 4096)
      else false)).map TableRow.mnemonic := by
  obtain ⟨h1, h2⟩ := toNat_ne_of_family hf h
  simp [tableName, opcodeTable, List.find?_cons, and_F000, and_F00F, and_F0FF, and_FFFF, hf, hn, hnn, h1, h2]

namespace EncodingMatchesTable

/-- The first row of the opcode table that the instruction's word matches is the instruction's own. -/
def Statement (i : Instr) : Prop := i.WellFormed → tableName (encode i) = some (mnemonicOf i)

theorem ofNNN {f : Nat} (hf : f < 16) (h : 0 < f) (nnn : Addr12) :
    tableName (packNNN f nnn) = (opcodeTable.find? (fun r =>
      if r.mask = 0xF000 then decide (f = r.pattern.toNat / 4096 ∧ 0 = r.pattern.toNat % 4096)
      else if r.mask = 0xF00F then decide (f = r.pattern.toNat / 4096 ∧ nnn.toNat % 16 = r.pattern.toNat % 4096)
      else if r.mask = 0xF0FF then decide (f = r.pattern.toNat / 4096 ∧ nnn.toNat % 256 = r.pattern.toNat % 4096)
      else false)).map TableRow.mnemonic := by
  refine tableName_of_fields (fieldF_packNNN hf nnn) ?_ ?_ h
  · rw [fieldN_eq, packNNN_toNat hf]
    omega
  · rw [fieldNN_toNat, packNNN_toNat hf]
    omega

theorem ofXNN {f : Nat} (hf : f < 16) (h : 0 < f) (x : RegIdx) {nn : Nat} (hn : nn < 256) :
    tableName (packXNN f x nn) = (opcodeTable.find? (fun r =>
      if r.mask = 0xF000 then decide (f = r.pattern.toNat / 4096 ∧ 0 = r.pattern.toNat % 4096)
      else if r.mask = 0xF00F then decide (f = r.pattern.toNat / 4096 ∧ nn % 16 = r.pattern.toNat % 4096)
      else if r.mask = 0xF0FF then decide (f = r.pattern.toNat / 4096 ∧ nn = r.pattern.toNat % 4096)
      else false)).map TableRow.mnemonic := by
  refine tableName_of_fields (fieldF_packXNN hf hn x) ?_ (fieldNN_packXNN hf hn x) h
  rw [fieldN_eq, packXNN_toNat hf hn]
  omega

theorem ofXYN {f : Nat} (hf : f < 16) (h : 0 < f) (x y : RegIdx) {n : Nat} (hn : n < 16) :
    tableName (packXYN f x y n) = (opcodeTable.find? (fun r =>
      if r.mask = 0xF000 then decide (f = r.pattern.toNat / 4096 ∧ 0 = r.pattern.toNat % 4096)
      else if r.mask = 0xF00F then decide (f = r.pattern.toNat / 4096 ∧ n = r.pattern.toNat % 4096)
      else if r.mask = 0xF0FF then decide (f = r.pattern.toNat / 4096 ∧ y.val * 16 + n = r.pattern.toNat % 4096)
      else false)).map TableRow.mnemonic := by
  refine tableName_of_fields (fieldF_packXYN hf hn x y) (fieldN_packXYN hf hn x y) ?_ h
  have := x.isLt
  have := y.isLt
  rw [fieldNN_toNat, packXYN_toNat hf hn]
  omega

theorem sys (nnn : Addr12) : Statement (.sys nnn) := by
  intro h
  simp only [Instr.WellFormed, Instr.wellFormed, Bool.and_eq_true, bne_iff_ne, ne_eq, ← BitVec.toNat_inj,
    BitVec.toNat_ofNat, Nat.reducePow, Nat.reduceMod] at h
  have hF := fieldF_packNNN (f := 0) (by omega) nnn
  have hw := packNNN_toNat (f := 0) (by omega) nnn
  rw [Nat.zero_mul, Nat.zero_add] at hw
  simp [encode, mnemonicOf, tableName, opcodeTable, and_F000, and_FFFF, hF, hw, h]

theorem cls : Statement .cls := fun _ => by decide

theorem ret : Statement .ret := fun _ => by decide

theorem jp (nnn : Addr12) : Statement (.jp nnn) := fun _ =>
  (ofNNN (by omega) (by omega) nnn).trans (by simp [opcodeTable, mnemonicOf])

theorem call (nnn : Addr12) : Statement (.call nnn) := fun _ =>
  (ofNNN (by omega) (by omega) nnn).trans (by simp [opcodeTable, mnemonicOf])

theorem seImm (x : RegIdx) (nn : Byte) : Statement (.seImm x nn) := fun _ =>
  (ofXNN (by omega) (by omega) x nn.isLt).trans (by simp [opcodeTable, mnemonicOf])

theorem sneImm (x : RegIdx) (nn : Byte) : Statement (.sneImm x nn) := fun _ =>
  (ofXNN (by omega) (by omega) x nn.isLt).trans (by simp [opcodeTable, mnemonicOf])

theorem seReg (x y : RegIdx) : Statement (.seReg x y) := fun _ =>
  (ofXYN (by omega) (by omega) x y (by omega)).trans (by simp [opcodeTable, mnemonicOf])

theorem ldImm (x : RegIdx) (nn : Byte) : Statement (.ldImm x nn) := fun _ =>
  (ofXNN (by omega) (by omega) x nn.isLt).trans (by simp [opcodeTable, mnemonicOf])

theorem addImm (x : RegIdx) (nn : Byte) : Statement (.addImm x nn) := fun _ =>
  (ofXNN (by omega) (by omega) x nn.isLt).trans (by simp [opcodeTable, mnemonicOf])

theorem ldReg (x y : RegIdx) : Statement (.ldReg x y) := fun _ =>
  (ofXYN (by omega) (by omega) x y (by omega)).trans (by simp [opcodeTable, mnemonicOf])

theorem orReg (x y : RegIdx) : Statement (.orReg x y) := fun _ =>
  (ofXYN (by omega) (by omega) x y (by omega)).trans (by simp [opcodeTable, mnemonicOf])

theorem andReg (x y : RegIdx) : Statement (.andReg x y) := fun _ =>
  (ofXYN (by omega) (by omega) x y (by omega)).trans (by simp [opcodeTable, mnemonicOf])

theorem xorReg (x y : RegIdx) : Statement (.xorReg x y) := fun _ =>
  (ofXYN (by omega) (by omega) x y (by omega)).trans (by simp [opcodeTable, mnemonicOf])

theorem addReg (x y : RegIdx) : Statement (.addReg x y) := fun _ =>
  (ofXYN (by omega) (by omega) x y (by omega)).trans (by simp [opcodeTable, mnemonicOf])

theorem sub (x y : RegIdx) : Statement (.sub x y) := fun _ =>
  (ofXYN (by omega) (by omega) x y (by omega)).trans (by simp [opcodeTable, mnemonicOf])

theorem shr (x y : RegIdx) : Statement (.shr x y) := fun _ =>
  (ofXYN (by omega) (by omega) x y (by omega)).trans (by simp [opcodeTable, mnemonicOf])

theorem subn (x y : RegIdx) : Statement (.subn x y) := fun _ =>
  (ofXYN (by omega) (by omega) x y (by omega)).trans (by simp [opcodeTable, mnemonicOf])

theorem shl (x y : RegIdx) : Statement (.shl x y) := fun _ =>
  (ofXYN (by omega) (by omega) x y (by omega)).trans (by simp [opcodeTable, mnemonicOf])

theorem sneReg (x y : RegIdx) : Statement (.sneReg x y) := fun _ =>
  (ofXYN (by omega) (by omega) x y (by omega)).trans (by simp [opcodeTable, mnemonicOf])

theorem ldI (nnn : Addr12) : Statement (.ldI nnn) := fun _ =>
  (ofNNN (by omega) (by omega) nnn).trans (by simp [opcodeTable, mnemonicOf])

theorem jpV0 (nnn : Addr12) : Statement (.jpV0 nnn) := fun _ =>
  (ofNNN (by omega) (by omega) nnn).trans (by simp [opcodeTable, mnemonicOf])

theorem rnd (x : RegIdx) (nn : Byte) : Statement (.rnd x nn) := fun _ =>
  (ofXNN (by omega) (by omega) x nn.isLt).trans (by simp [opcodeTable, mnemonicOf])

theorem drw (x y : RegIdx) (n : Fin 16) : Statement (.drw x y n) := fun _ =>
  (ofXYN (by omega) (by omega) x y n.isLt).trans (by simp [opcodeTable, mnemonicOf])

theorem skp (x : RegIdx) : Statement (.skp x) := fun _ =>
  (ofXNN (by omega) (by omega) x (by omega)).trans (by simp [opcodeTable, mnemonicOf])

theorem sknp (x : RegIdx) : Statement (.sknp x) := fun _ =>
  (ofXNN (by omega) (by omega) x (by omega)).trans (by simp [opcodeTable, mnemonicOf])

theorem ldVxDt (x : RegIdx) : Statement (.ldVxDt x) := fun _ =>
  (ofXNN (by omega) (by omega) x (by omega)).trans (by simp [opcodeTable, mnemonicOf])

theorem ldVxK (x : RegIdx) : Statement (.ldVxK x) := fun _ =>
  (ofXNN (by omega) (by omega) x (by omega)).trans (by simp [opcodeTable, mnemonicOf])

theorem ldDtVx (x : RegIdx) : Statement (.ldDtVx x) := fun _ =>
  (ofXNN (by omega) (by omega) x (by omega)).trans (by simp [opcodeTable, mnemonicOf])

theorem ldStVx (x : RegIdx) : Statement (.ldStVx x) := fun _ =>
  (ofXNN (by omega) (by omega) x (by omega)).trans (by simp [opcodeTable, mnemonicOf])

theorem addI (x : RegIdx) : Statement (.addI x) := fun _ =>
  (ofXNN (by omega) (by omega) x (by omega)).trans (by simp [opcodeTable, mnemonicOf])

theorem ldF (x : RegIdx) : Statement (.ldF x) := fun _ =>
  (ofXNN (by omega) (by omega) x (by omega)).trans (by simp [opcodeTable, mnemonicOf])

theorem ldB (x : RegIdx) : Statement (.ldB x) := fun _ =>
  (ofXNN (by omega) (by omega) x (by omega)).trans (by simp [opcodeTable, mnemonicOf])

theorem storeRegs (x : RegIdx) : Statement (.storeRegs x) := fun _ =>
  (ofXNN (by omega) (by omega) x (by omega)).trans (by simp [opcodeTable, mnemonicOf])

theorem loadRegs (x : RegIdx) : Statement (.loadRegs x) := fun _ =>
  (ofXNN (by omega) (by omega) x (by omega)).trans (by simp [opcodeTable, mnemonicOf])

end EncodingMatchesTable

end Sys2Proof.Laws
end

