-- ==== Sys2Proof/Laws/Step.lean ====
section
/-! SUPPORT. What fetch and step answer, case by case, and that the next step runs a placed word (40_pipeline.md). -/

namespace Sys2Proof.Machine

/-- A fetch inside the memory answers the big-endian word. -/
theorem fetch_ok {s : State} (h : s.pc.toNat + 1 < memSize) :
    fetch s = .ok (wordOfBytes (s.mem.read s.pc.toNat) (s.mem.read (s.pc.toNat + 1))) := by
  simp only [fetch, memRead, if_pos h, if_pos (show s.pc.toNat < memSize by omega)]

/-- A fetch that answers a word was inside the memory. -/
theorem fetch_inv {s : State} {w : Word} (h : fetch s = .ok w) :
    s.pc.toNat + 1 < memSize ∧ w = wordOfBytes (s.mem.read s.pc.toNat) (s.mem.read (s.pc.toNat + 1)) := by
  unfold fetch memRead at h
  split at h
  · cases h
  · split at h
    · cases h
    · rename_i h1 _ _ h2
      split at h1 <;> cases h1
      split at h2 <;> cases h2
      cases h
      exact ⟨by assumption, rfl⟩

/-- A fetch that answers a fault was outside the memory, and reports the lowest address outside it. -/
theorem fetch_fault {s : State} {c : FaultCause} (h : fetch s = .error c) :
    ∃ a, c = .memoryBounds a ∧ memSize ≤ a ∧ (a = s.pc.toNat ∨ a = s.pc.toNat + 1) := by
  unfold fetch memRead at h
  split at h
  · rename_i h1
    split at h1 <;> cases h1
    cases h
    exact ⟨_, rfl, by omega, .inl rfl⟩
  · split at h
    · rename_i h2
      split at h2 <;> cases h2
      cases h
      exact ⟨_, rfl, by omega, .inr rfl⟩
    · cases h

/-- Everything a step that answers a next state can do: record a fetch fault, record a decode fault, or execute the
instruction of the fetched word. -/
theorem step_next {s t : State} (h : step s = .next t) :
    s.fault = none ∧
    ((∃ c, fetch s = .error c ∧ t = raise c none s) ∨
     (∃ w e, fetch s = .ok w ∧ decodeWord w = .error e ∧ t = raise (.illegalInstruction w) (some w) s) ∨
     (∃ w i, fetch s = .ok w ∧ decodeWord w = .ok i ∧ exec i s = .next t)) := by
  unfold step at h
  cases hf : s.fault with
  | some r => simp [hf, refuseStep] at h
  | none =>
    refine ⟨rfl, ?_⟩
    simp only [hf] at h
    cases hw : fetch s with
    | error c => simp only [hw] at h; cases h; exact .inl ⟨c, rfl, rfl⟩
    | ok w =>
      simp only [hw] at h
      cases hd : decodeWord w with
      | error e => simp only [decodeFetched, hd] at h; cases h; exact .inr (.inl ⟨w, e, rfl, hd, rfl⟩)
      | ok i => simp only [decodeFetched, hd] at h; exact .inr (.inr ⟨w, i, rfl, hd, h⟩)

/-- Placing a word keeps the canonical form of the memory. -/
theorem placeWord_wf {s : State} (h : s.mem.wf) (w : Word) : (placeWord s w).mem.wf := by
  refine Memory.wf_writeBytes h ?_
  show BitVec.toNat (if s.pc.toNat + 1 < memSize then s.pc else BitVec.ofNat 16 programBase) + 2 ≤ memSize
  split
  · omega
  · decide

/-- The next step after a table row's word is placed runs the instruction the word decodes to, from any state
(notes/assumptions/10.md). -/
theorem step_withFetchWord (s : State) (w : Nat) (i : Instr) (h : decodeTableWord 16 w = some i) :
    step (s.withFetchWord 16 w) = exec i (s.withFetchWord 16 w) := by
  have hd : decodeWord (tableWord 16 w) = .ok i := by
    simp only [decodeTableWord, decode, wordOfBytes_hi_lo] at h
    cases hd : decodeWord (tableWord 16 w) with
    | error e => simp [hd] at h
    | ok j => simp [hd] at h; rw [h]
  have hpc : (s.withFetchWord 16 w).pc.toNat + 1 < memSize := by
    simp only [State.withFetchWord, placeWord]
    by_cases h : s.pc.toNat + 1 < memSize
    · rw [if_pos h]; exact h
    · rw [if_neg h]; decide
  have hw : fetch (s.withFetchWord 16 w) = .ok (tableWord 16 w) := by
    rw [fetch_ok hpc]
    simp only [State.withFetchWord, placeWord, Memory.writeBytes, Memory.read_write]
    simp
  simp only [step, hw, decodeFetched, hd]
  rfl

end Sys2Proof.Machine
end

