-- ==== Sys2Proof/Tests/Slice0.lean ====
section
/-! SUPPORT. The model's own tests: ill-formed terms that the checks refuse, a word of every instruction written out
from 30_encoding.md R59, one-step vectors of 95_test_vectors.md, and for every obligation with hypotheses a state and
operands that meet them. -/

namespace Sys2Proof.Tests

open Sys2Proof.Machine

/-! ## Small states -/

/-- The reset state with registers written. -/
def regs (l : List (RegIdx × Byte)) : State := l.foldl (fun s p => s.setReg p.1 p.2) State.reset

/-- A state with memory bytes written. -/
def withBytes (a : Nat) (bs : List Byte) (s : State) : State := { s with mem := s.mem.writeBytes a bs }

/-- The reset state with a stack pointer. -/
def depth (n : Fin 17) : State := { State.reset with sp := n }

/-- The reset state with an index register. -/
def atIndex (i : Word) : State := { State.reset with I := i }

/-- The reset state with a program counter. -/
def atPc (p : Word) : State := { State.reset with pc := p }

/-- The reset state with one key pressed. -/
def pressed (k : Fin 16) : State := { State.reset with key := State.reset.key.set k.val true k.isLt }

/-- The reset state under the policy that `SYS` only advances. -/
def noOpState : State := { State.reset with config := { defaultConfig with sysPolicy := .noOp } }

/-- The reset state under the ReferenceDouble contract. -/
def doubleState : State := { State.reset with config := { defaultConfig with pcContract := .referenceDouble } }

/-- The reset state after a `RET` on the empty stack. -/
def faultedState : State := raise .stackUnderflow (some 0x00EE) State.reset

/-- The state after a step that runs a word placed at the pc. -/
def ran (w : Nat) (s : State) : Option State :=
  match step (s.withFetchWord 16 w) with
  | .next t => some t
  | .fault _ => none
  | .refused _ => none

/-- The cause a step that runs a word placed at the pc records. -/
def causeOf (w : Nat) (s : State) : Option FaultCause := ((ran w s).bind State.fault).map FaultRecord.cause

/-! ## Ill-formed terms are refused -/

theorem test_sys_of_cls_word_is_ill_formed : (Instr.sys 0x0E0).wellFormed = false := by decide
theorem test_sys_of_ret_word_is_ill_formed : (Instr.sys 0x0EE).wellFormed = false := by decide
theorem test_sys_of_other_word_is_well_formed : (Instr.sys 0x0E1).wellFormed = true := by decide

/-! ## Decoding: a word of every instruction, from the patterns of 30_encoding.md R59 -/

theorem test_decode_family_0 :
    decodeWord 0b0000_0000_1110_0001 = .ok (.sys 0x0E1) ∧ decodeWord 0b0000_0000_1110_0000 = .ok .cls ∧
    decodeWord 0b0000_0000_1110_1110 = .ok .ret := by decide
theorem test_decode_families_1_2 :
    decodeWord 0b0001_0010_0011_0100 = .ok (.jp 0x234) ∧ decodeWord 0b0010_0011_0000_0000 = .ok (.call 0x300) := by
  decide
theorem test_decode_families_3_4_5 :
    decodeWord 0b0011_0011_0010_1010 = .ok (.seImm 3 0x2A) ∧ decodeWord 0b0100_0001_0000_0011 = .ok (.sneImm 1 3) ∧
    decodeWord 0b0101_0001_0010_0000 = .ok (.seReg 1 2) ∧ decodeWord 0x5121 = .error (.illegal 0x5121) := by decide
theorem test_decode_families_6_7 :
    decodeWord 0b0110_1010_1111_1111 = .ok (.ldImm 10 0xFF) ∧
    decodeWord 0b0111_1111_0000_0011 = .ok (.addImm 15 3) := by decide
theorem test_decode_family_8_low :
    decodeWord 0b1000_0001_0010_0000 = .ok (.ldReg 1 2) ∧ decodeWord 0b1000_0001_0010_0001 = .ok (.orReg 1 2) ∧
    decodeWord 0b1000_0001_0010_0010 = .ok (.andReg 1 2) ∧ decodeWord 0b1000_0001_0010_0011 = .ok (.xorReg 1 2) := by
  decide
theorem test_decode_family_8_high :
    decodeWord 0b1000_0001_0010_0100 = .ok (.addReg 1 2) ∧ decodeWord 0b1000_0001_0010_0101 = .ok (.sub 1 2) ∧
    decodeWord 0b1000_0001_1111_0110 = .ok (.shr 1 15) ∧ decodeWord 0b1000_0001_0010_0111 = .ok (.subn 1 2) ∧
    decodeWord 0b1000_0001_0010_1110 = .ok (.shl 1 2) := by decide
theorem test_decode_family_8_illegal :
    decodeWord 0x8128 = .error (.illegal 0x8128) ∧ decodeWord 0x812F = .error (.illegal 0x812F) := by decide
theorem test_decode_families_9_A_B :
    decodeWord 0b1001_0001_0010_0000 = .ok (.sneReg 1 2) ∧ decodeWord 0x912F = .error (.illegal 0x912F) ∧
    decodeWord 0b1010_0011_0000_0000 = .ok (.ldI 0x300) ∧ decodeWord 0b1011_1111_1111_1111 = .ok (.jpV0 0xFFF) := by
  decide
theorem test_decode_families_C_D :
    decodeWord 0b1100_0011_0000_1111 = .ok (.rnd 3 0x0F) ∧ decodeWord 0b1101_0000_0001_1111 = .ok (.drw 0 1 15) := by
  decide
theorem test_decode_family_E :
    decodeWord 0b1110_0001_1001_1110 = .ok (.skp 1) ∧ decodeWord 0b1110_0001_1010_0001 = .ok (.sknp 1) ∧
    decodeWord 0xE19F = .error (.illegal 0xE19F) := by decide
theorem test_decode_family_F_timers_and_key :
    decodeWord 0b1111_0001_0000_0111 = .ok (.ldVxDt 1) ∧ decodeWord 0b1111_0001_0000_1010 = .ok (.ldVxK 1) ∧
    decodeWord 0b1111_0001_0001_0101 = .ok (.ldDtVx 1) ∧ decodeWord 0b1111_0001_0001_1000 = .ok (.ldStVx 1) := by
  decide
theorem test_decode_family_F_index_and_memory :
    decodeWord 0b1111_0101_0001_1110 = .ok (.addI 5) ∧ decodeWord 0b1111_0010_0010_1001 = .ok (.ldF 2) ∧
    decodeWord 0b1111_0100_0011_0011 = .ok (.ldB 4) ∧ decodeWord 0b1111_0101_0101_0101 = .ok (.storeRegs 5) ∧
    decodeWord 0b1111_1111_0110_0101 = .ok (.loadRegs 15) := by decide
theorem test_decode_family_F_illegal :
    decodeWord 0xF108 = .error (.illegal 0xF108) ∧ decodeWord 0xF1FF = .error (.illegal 0xF1FF) := by decide
/-- The first byte is the high one (20_memory.md R42). -/
theorem test_decode_bytes_big_endian : decode [0x6A, 0xFF, 0x12] = .ok (.ldImm 10 0xFF, [0x12]) := by decide
theorem test_decode_one_byte_refused : decode [0x6A] = .error .truncated := by decide

/-! ## Control transfer (95_test_vectors.md 2.2) -/

theorem test_sys_raises_under_fault_policy :
    causeOf 0x0123 State.reset = some (.unspecifiedOperation 0x0123) := by decide
theorem test_sys_advances_under_noop_policy :
    (ran 0x0123 noOpState).map (fun t => (t.pc, t.fault)) = some (0x202, none) := by decide
theorem test_jp : (ran 0x1234 State.reset).map State.pc = some 0x234 := by decide
theorem test_call_pushes :
    (ran 0x2300 (atPc 0x204)).map (fun t => (t.stack.get 0, t.sp, t.pc)) = some (0x206, 1, 0x300) := by decide
theorem test_call_overflow :
    (ran 0x2300 (depth 16)).map (fun t => (t.fault.map FaultRecord.code, t.sp, t.pc)) = some (some 3, 16, 0x200) := by
  decide
theorem test_ret_pops :
    (ran 0x00EE { depth 1 with stack := State.reset.stack.set 0 0x208 }).map (fun t => (t.sp, t.pc, t.stack.get 0)) =
      some (0, 0x208, 0x208) := by decide
theorem test_ret_underflow : causeOf 0x00EE State.reset = some .stackUnderflow := by decide
theorem test_se_imm_taken : (ran 0x332A (regs [(3, 0x2A)])).map State.pc = some 0x204 := by decide
theorem test_se_imm_not_taken : (ran 0x332A (regs [(3, 0x2B)])).map State.pc = some 0x202 := by decide
theorem test_sne_imm_taken : (ran 0x432A (regs [(3, 0x2B)])).map State.pc = some 0x204 := by decide
theorem test_sne_imm_not_taken : (ran 0x432A (regs [(3, 0x2A)])).map State.pc = some 0x202 := by decide
theorem test_se_reg_taken : (ran 0x5010 (regs [(0, 5), (1, 5)])).map State.pc = some 0x204 := by decide
theorem test_se_reg_not_taken : (ran 0x5010 (regs [(0, 5), (1, 6)])).map State.pc = some 0x202 := by decide
theorem test_sne_reg_taken : (ran 0x9010 (regs [(0, 5), (1, 6)])).map State.pc = some 0x204 := by decide
theorem test_sne_reg_not_taken : (ran 0x9010 (regs [(0, 5), (1, 5)])).map State.pc = some 0x202 := by decide
theorem test_jp_v0_leaves_memory : (ran 0xBFFF (regs [(0, 0xFF)])).map State.pc = some 0x10FE := by decide
theorem test_double_advance : (ran 0x6001 doubleState).map (fun t => (t.reg 0, t.pc)) = some (1, 0x204) := by decide
theorem test_double_call_pushes_two :
    (ran 0x2300 doubleState).map (fun t => (t.stack.get 0, t.pc)) = some (0x202, 0x302) := by decide

/-! ## The ALU (95_test_vectors.md 2.3) -/

theorem test_ld_imm_writes_vf : (ran 0x6F42 State.reset).map (fun t => t.reg 0xF) = some 0x42 := by decide
theorem test_add_imm_wraps_without_flag :
    (ran 0x7001 (regs [(0, 0xFF), (0xF, 7)])).map (fun t => (t.reg 0, t.reg 0xF)) = some (0, 7) := by decide
theorem test_ld_reg : (ran 0x8120 (regs [(2, 0x5A)])).map (fun t => t.reg 1) = some 0x5A := by decide
theorem test_or : (ran 0x8121 (regs [(1, 0xF0), (2, 0x0F), (0xF, 9)])).map (fun t => (t.reg 1, t.reg 0xF)) =
    some (0xFF, 9) := by decide
theorem test_and : (ran 0x8122 (regs [(1, 0xF0), (2, 0x0F), (0xF, 9)])).map (fun t => (t.reg 1, t.reg 0xF)) =
    some (0, 9) := by decide
theorem test_xor_self : (ran 0x8113 (regs [(1, 0xAB)])).map (fun t => t.reg 1) = some 0 := by decide
theorem test_add_carry : (ran 0x8124 (regs [(1, 0xC8), (2, 0x64)])).map (fun t => (t.reg 1, t.reg 0xF)) =
    some (0x2C, 1) := by decide
theorem test_add_flag_wins : (ran 0x8F14 (regs [(0xF, 0x10), (1, 1)])).map (fun t => t.reg 0xF) = some 0 := by decide
theorem test_sub_borrow : (ran 0x8125 (regs [(1, 3), (2, 5)])).map (fun t => (t.reg 1, t.reg 0xF)) =
    some (0xFE, 0) := by decide
theorem test_sub_equal : (ran 0x8125 (regs [(1, 7), (2, 7)])).map (fun t => (t.reg 1, t.reg 0xF)) = some (0, 1) := by
  decide
theorem test_subn : (ran 0x8127 (regs [(1, 3), (2, 5)])).map (fun t => (t.reg 1, t.reg 0xF)) = some (2, 1) := by decide
theorem test_shr_ignores_vy :
    (ran 0x8056 (regs [(0, 0x81), (5, 0x33)])).map (fun t => (t.reg 0, t.reg 0xF, t.reg 5)) =
      some (0x40, 1, 0x33) := by decide
theorem test_shr_flag_wins : (ran 0x8F06 (regs [(0xF, 3)])).map (fun t => t.reg 0xF) = some 1 := by decide
theorem test_shl : (ran 0x810E (regs [(1, 0x81)])).map (fun t => (t.reg 1, t.reg 0xF)) = some (2, 1) := by decide
theorem test_shl_no_carry : (ran 0x810E (regs [(1, 0x40)])).map (fun t => (t.reg 1, t.reg 0xF)) = some (0x80, 0) := by
  decide
theorem test_rnd_masks_the_draw :
    (ran 0xC30F State.reset).map (fun t => (t.reg 3, t.draws)) = some (Config.randDraw 0 &&& 0x0F, 1) := by rfl

/-! ## Index register and memory (95_test_vectors.md 2.4) -/

theorem test_ld_i : (ran 0xA300 State.reset).map State.I = some 0x300 := by decide
theorem test_add_i_wraps : (ran 0xF51E { regs [(5, 2)] with I := 0xFFFF }).map State.I = some 1 := by decide
theorem test_add_i_leaves_memory : (ran 0xF51E { regs [(5, 1)] with I := 0x0FFF }).map State.I = some 0x1000 := by
  decide
theorem test_ld_f_low_nibble : (ran 0xF229 (regs [(2, 0x1A)])).map State.I = some 0x32 := by decide
theorem test_ld_b_231 : (ran 0xF433 { regs [(4, 0xE7)] with I := 0x300 }).map
    (fun t => [t.mem.read 0x300, t.mem.read 0x301, t.mem.read 0x302]) = some [2, 3, 1] := by decide
theorem test_ld_b_out_of_range : (ran 0xF433 { regs [(4, 7)] with I := 0x0FFE }).map
    (fun t => (t.fault.map FaultRecord.cause, t.mem.read 0xFFE)) = some (some (.memoryBounds 0x1000), 0) := by decide
theorem test_store_regs : (ran 0xF155 { regs [(0, 0x11), (1, 0x22), (2, 0x33)] with I := 0x300 }).map
    (fun t => ([t.mem.read 0x300, t.mem.read 0x301, t.mem.read 0x302], t.I)) = some ([0x11, 0x22, 0], 0x300) := by
  decide
theorem test_store_regs_out_of_range : causeOf 0xF155 (atIndex 0x0FFF) = some (.memoryBounds 0x1000) := by decide
theorem test_load_regs : (ran 0xF265 (withBytes 0x300 [7, 8, 9, 10] (atIndex 0x300))).map
    (fun t => [t.reg 0, t.reg 1, t.reg 2, t.reg 3]) = some [7, 8, 9, 0] := by decide
theorem test_load_regs_out_of_range : causeOf 0xF165 (atIndex 0x0FFF) = some (.memoryBounds 0x1000) := by decide

/-! ## Display (95_test_vectors.md 2.5) -/

theorem test_cls : (ran 0x00E0 { State.reset with fb := State.reset.fb.toggle 5 7 }).map
    (fun t => t.fb.pixel 5 7) = some false := by decide
theorem test_drw_wraps_columns :
    (ran 0xD011 (withBytes 0x300 [0xFF] { regs [(0, 60)] with I := 0x300 })).map
      (fun t => ([59, 60, 63, 0, 3, 4].map (fun x => t.fb.pixel x 0), t.reg 0xF)) =
      some ([false, true, true, true, true, false], 0) := by decide
theorem test_drw_twice_collides :
    (((ran 0xD011 (withBytes 0x300 [0x80] { regs [(0, 5), (1, 7)] with I := 0x300 })).bind (ran 0xD011)).map
      (fun t => (t.fb.pixel 5 7, t.reg 0xF))) = some (false, 1) := by decide

/-! ## Keys, timers, commands (95_test_vectors.md 2.6, 2.7) -/

theorem test_skp_pressed : (ran 0xE49E ((pressed 10).setReg 4 0x0A)).map State.pc = some 0x204 := by decide
theorem test_skp_out_of_range : causeOf 0xE49E (regs [(4, 0x10)]) = some (.keyIndexRange 0x10) := by decide
theorem test_sknp_pressed : (ran 0xE4A1 ((pressed 10).setReg 4 0x0A)).map State.pc = some 0x202 := by decide
theorem test_sknp_not_pressed : (ran 0xE4A1 (regs [(4, 0x0A)])).map State.pc = some 0x204 := by decide
theorem test_ld_vx_dt : (ran 0xF307 { State.reset with dt := 0x3C }).map (fun t => t.reg 3) = some 0x3C := by decide
theorem test_ld_dt_vx : (ran 0xF315 (regs [(3, 0x3C)])).map (fun t => (t.dt, t.st)) = some (0x3C, 0) := by decide
theorem test_ld_st_vx : (ran 0xF318 (regs [(3, 0x3C)])).map (fun t => (t.dt, t.st)) = some (0, 0x3C) := by decide
theorem test_ld_vx_k_waits : (ran 0xF50A State.reset).map (fun t => (t.pc, t.draws)) = some (0x200, 0) := by decide
theorem test_ld_vx_k_takes_the_draw :
    (ran 0xF50A (pressed 7)).map (fun t => (t.reg 5, t.pc)) = some (Config.waitKeyDraw 0, 0x202) := by rfl
theorem test_timer_tick_edge :
    (runCommand .timerTick { State.reset with dt := 5, st := 1 }).1.dt = 4 ∧
    (runCommand .timerTick { State.reset with dt := 5, st := 1 }).2 = .edge true := by decide
theorem test_timer_tick_floor :
    (runCommand .timerTick State.reset).1 = State.reset ∧ (runCommand .timerTick State.reset).2 = .edge false := by
  decide
theorem test_set_key :
    (runCommand (.setKey 3 true) State.reset).1.keyAt 3 = true ∧
    (runCommand (.setKey 16 true) State.reset).1 = State.reset := by decide
theorem test_load_places_at_program_base :
    (runCommand (.load [0x12, 0x00]) State.reset).1.mem = [(0x200, 0x12)] := by decide
/-- R183: with no program loaded, the first step raises `UnspecifiedOperation(0x0000)`. -/
theorem test_step_from_reset :
    (runCommand .step State.reset).2 =
      .fault { cause := .unspecifiedOperation 0, pc := 0x200, word := some 0 } := by decide
theorem test_core_is_this_machine : core.reset = State.reset ∧ core.step State.reset = step State.reset := ⟨rfl, rfl⟩

/-! ## Fetch and the glyph set (95_test_vectors.md 2.1, 10_state.md R33) -/

theorem test_fetch_last_word : (ran 0x1200 (atPc 0x0FFE)).map State.pc = some 0x200 := by decide
theorem test_fetch_odd_address : (ran 0x6001 (atPc 0x0201)).map State.pc = some 0x203 := by decide
theorem test_illegal_word_record :
    (ran 0x5121 State.reset).bind State.fault =
      some { cause := .illegalInstruction 0x5121, pc := 0x200, word := some 0x5121 } := by decide
theorem test_glyph_bytes : State.reset.mem.read 0x4B = 0xF0 ∧ State.reset.mem.read 0x4F = 0x80 ∧
    State.reset.mem.read 0x50 = 0 := by decide

/-! ## Witnesses: for every obligation with hypotheses, data that meets them

`State.reset` meets `Canonical`, so it witnesses every statement whose one hypothesis that is, with any operands. -/

theorem test_witness_DecodeOfEncodedBytesReturnsInstruction :
    (Instr.sys 0xFFF).WellFormed ∧ (Instr.drw 15 15 15).WellFormed ∧ (Instr.loadRegs 15).WellFormed := by decide
theorem test_witness_EncodeOfDecodedWordReturnsWord : decodeWord 0xFF65 = .ok (.loadRegs 15) := by decide
theorem test_witness_DecoderAgreesWithOpcodeTable :
    decodeWord 0x0FFF = .ok (.sys 0xFFF) ∧ decodeWord 0xFFFF = .error (.illegal 0xFFFF) := by decide
theorem test_witness_IllegalWordsAreExactlyThese :
    [0x5001, 0x8008, 0x800F, 0x900F, 0xE09F, 0xE0A0, 0xF066, 0xF000].all (fun w => decodeWord w == .error (.illegal w)) ∧
    [0x5000, 0x8007, 0x800E, 0x9000, 0xE09E, 0xE0A1, 0xF065, 0xF007].all (fun w => decodeWord w != .error (.illegal w)) := by
  decide
theorem test_witness_SysFollowsPolicy :
    (0x000 : Addr12) ≠ 0x0E0#12 ∧ (0x0EF : Addr12) ≠ 0x0EE#12 ∧ State.reset.config.sysPolicy = .fault ∧
    noOpState.config.sysPolicy = .noOp ∧ noOpState.Canonical := by decide
theorem test_witness_ReturnPopsProgramCounter :
    State.reset.sp.val = 0 ∧ (depth 1).sp.val = (0 : Fin 16).val + 1 ∧ (depth 16).sp.val = (15 : Fin 16).val + 1 ∧
    (depth 16).Canonical := by decide
theorem test_witness_JumpSetsProgramCounter : (ran 0x1FFF State.reset).map State.pc = some 0xFFF ∧
    State.reset.Canonical := by decide
theorem test_witness_CallPushesReturnAddress :
    (depth 16).sp.val = 16 ∧ (depth 15).sp.val = (15 : Fin 16).val ∧ State.reset.sp.val = (0 : Fin 16).val ∧
    (depth 15).Canonical := by decide
theorem test_witness_RegisterSkipsFollowComparison :
    (regs [(3, 5)]).Canonical ∧ (regs [(3, 5)]).reg 3 = 5 ∧ (regs [(3, 5)]).reg 3 ≠ (regs [(3, 5)]).reg 4 ∧
    (regs [(3, 5)]).reg 4 = (regs [(3, 5)]).reg 5 := by decide
theorem test_witness_JumpOffsetAddsRegisterZero : (regs [(0, 0xFF)]).Canonical := by decide
theorem test_witness_ImmediateAndCopyFormsWriteDestination : (regs [(1, 0xFF)]).Canonical := by decide
theorem test_witness_LogicalOperationsActBitwise : (regs [(1, 0xF0), (2, 0x0F)]).Canonical := by decide
theorem test_witness_AddRegistersWritesSumAndCarry :
    (regs [(1, 0xFF), (2, 1)]).Canonical ∧ (1 : RegIdx) ≠ 0xF ∧
    256 ≤ ((regs [(1, 0xFF), (2, 1)]).reg 1).toNat + ((regs [(1, 0xFF), (2, 1)]).reg 2).toNat := by decide
theorem test_witness_SubtractionsWriteDifferenceAndNotBorrow :
    (regs [(1, 7), (2, 7)]).Canonical ∧ (1 : RegIdx) ≠ 0xF := by decide
theorem test_witness_ShiftsWriteShiftedOutBit : (regs [(1, 0x81)]).Canonical ∧ (1 : RegIdx) ≠ 0xF := by decide
theorem test_witness_RandomIsFreeDrawMasked : State.reset.Canonical := rfl
theorem test_witness_AluLawsHold :
    (1 : RegIdx) ≠ 2 ∧ (1 : RegIdx) ≠ 0xF ∧ (2 : RegIdx) ≠ 0xF ∧
    Instr.shl 0xF 2 ∈ [.addReg 0xF 2, .sub 0xF 2, .shr 0xF 2, .subn 0xF 2, .shl 0xF 2] := by decide
theorem test_witness_IndexLoadAndAdd : (atIndex 0xFFFF).Canonical := rfl
theorem test_witness_GlyphAddressIsFiveTimesLowNibble : (regs [(2, 0x1F)]).Canonical := by decide
theorem test_witness_DecimalStoreWritesThreeDigits :
    FirstOutOfRange (atIndex 0xFFE) 3 (.memoryBounds 0x1000) ∧ FirstOutOfRange (atIndex 0xFFFF) 3 (.memoryBounds 0xFFFF) ∧
    (atIndex 0xFFD).I.toNat + 2 < 4096 ∧ (atIndex 0xFFD).Canonical :=
  ⟨⟨2, by decide, by decide, by decide, rfl⟩, ⟨0, by decide, by decide, by decide, rfl⟩, by decide, rfl⟩
theorem test_witness_BlockStoreCopiesRegisters :
    FirstOutOfRange (atIndex 0xFFF) ((1 : RegIdx).val + 1) (.memoryBounds 0x1000) ∧
    (atIndex 0xFF0).I.toNat + (15 : RegIdx).val < 4096 ∧ (atIndex 0xFF0).Canonical :=
  ⟨⟨1, by decide, by decide, by decide, rfl⟩, by decide, rfl⟩
theorem test_witness_BlockLoadCopiesMemory :
    FirstOutOfRange (atIndex 0x1000) ((0 : RegIdx).val + 1) (.memoryBounds 0x1000) ∧
    (atIndex 0xFFF).I.toNat + (0 : RegIdx).val < 4096 ∧ (atIndex 0xFFF).Canonical :=
  ⟨⟨0, by decide, by decide, by decide, rfl⟩, by decide, rfl⟩
theorem test_witness_BlockStoreThenLoadRestores : (atIndex 0xFF0).I.toNat + (15 : RegIdx).val < 4096 := by decide
theorem test_witness_StoreIsSeenByNextFetch :
    (0 : RegIdx) < 1 ∧ (atIndex 0x202).I.toNat + (1 : RegIdx).val < 4096 ∧
    ∃ t, exec (.storeRegs 1) (atIndex 0x202) = .next t ∧ t.pc.toNat = (atIndex 0x202).I.toNat + (0 : RegIdx).val :=
  ⟨by decide, by decide, _, rfl, by decide⟩
theorem test_witness_ClearSetsEveryCellFalse : State.reset.Canonical := rfl

/-- A state whose sprite row of one bit at 0x300 lands on the cell (5, 7), which is set or not. -/
def spriteState (lit : Bool) : State :=
  let s := withBytes 0x300 [0x80] { regs [(0, 5), (1, 7)] with I := 0x300 }
  if lit then { s with fb := s.fb.toggle 5 7 } else s

theorem test_sprite_hits (lit : Bool) : SpriteHits (spriteState lit) 0 1 1 5 7 := by
  cases lit <;> exact ⟨0, 0, by decide, by decide, by decide, by decide, by decide⟩
theorem test_witness_DrawXorsSpriteAndReportsCollision :
    FirstOutOfRange (atIndex 0xFFF) (2 : Fin 16).val (.memoryBounds 0x1000) ∧
    (∀ r, r < (1 : Fin 16).val → (atIndex 0xFFF).I.toNat + r < 4096) ∧ (atIndex 0xFFF).Canonical ∧
    (∃ px py, SpriteHits (spriteState true) 0 1 1 px py ∧ (spriteState true).fb.pixel px py = true) ∧
    (∀ px py, (spriteState false).fb.pixel px py = false) :=
  ⟨⟨1, by decide, by decide, by decide, rfl⟩, by decide, rfl, ⟨5, 7, test_sprite_hits true, by decide⟩,
    fun px py => by simp [spriteState, withBytes, regs, Framebuffer.pixel, State.reset, State.setReg]⟩
theorem test_witness_DrawTwiceRestoresDisplay :
    (0 : RegIdx) ≠ 0xF ∧ (1 : RegIdx) ≠ 0xF ∧
    (∀ r, r < (1 : Fin 16).val → (spriteState false).I.toNat + r < 4096) ∧
    (∃ px py, SpriteHits (spriteState false) 0 1 1 px py) :=
  ⟨by decide, by decide, by decide, 5, 7, test_sprite_hits false⟩
theorem test_witness_FramebufferWrittenOnlyByDisplayInstructions :
    (∃ t, exec .cls (spriteState true) = .next t ∧ t.fb.pixel 5 7 ≠ (spriteState true).fb.pixel 5 7) ∧
    Command.timerTick ≠ .reset ∧ Command.timerTick ≠ .step := ⟨⟨_, rfl, by decide⟩, by decide, by decide⟩
theorem test_witness_KeySkipsTestKeyLevel :
    16 ≤ ((regs [(4, 0x10)]).reg 4).toNat ∧ ((regs [(4, 0x0F)]).reg 4).toNat = (15 : Fin 16).val ∧
    (regs [(4, 0x0F)]).Canonical ∧ (pressed 15).keyAt 15 = true ∧ State.reset.keyAt 15 = false := by decide
theorem test_witness_DelayTimerMoves : State.reset.Canonical := rfl
theorem test_witness_SoundTimerWriteEmitsNoEdge :
    State.reset.Canonical ∧ (State.reset.withFetchWord 16 0xF318).fault = none ∧
    fetch (State.reset.withFetchWord 16 0xF318) = .ok (encode (.ldStVx 3)) := ⟨rfl, rfl, by rfl⟩
theorem test_witness_WaitKeyReadsDrawOrWaits :
    (∃ k, (pressed 7).keyAt k = true) ∧ (pressed 7).Canonical ∧ (∀ k, State.reset.keyAt k = false) ∧
    State.reset.Canonical ∧ (∀ k, doubleState.keyAt k = false) ∧ doubleState.config.pcContract = .referenceDouble := by
  decide
theorem test_witness_StepRunsDecodedInstruction :
    ((atPc 0xFFE).withFetchWord 16 0x1200).fault = none ∧ ((atPc 0xFFE).withFetchWord 16 0x1200).pc.toNat + 1 < 4096 ∧
    decode [((atPc 0xFFE).withFetchWord 16 0x1200).mem.read 0xFFE, ((atPc 0xFFE).withFetchWord 16 0x1200).mem.read 0xFFF] =
      .ok (.jp 0x200, []) := by decide
theorem test_witness_FetchOutsideMemoryIsRecorded :
    (atPc 0xFFF).fault = none ∧ 4096 ≤ (atPc 0xFFF).pc.toNat + 1 ∧ (atPc 0xFFF).pc.toNat = 4095 ∧
    (atPc 0x1000).fault = none ∧ 4096 ≤ (atPc 0x1000).pc.toNat := by decide
theorem test_witness_IllegalWordIsRecorded :
    (State.reset.withFetchWord 16 0x5121).fault = none ∧ fetch (State.reset.withFetchWord 16 0x5121) = .ok 0x5121 ∧
    decodeWord 0x5121 = .error (.illegal 0x5121) := ⟨rfl, by rfl, by decide⟩
theorem test_witness_FaultedMachineRefusesSteps : faultedState.fault.isSome = true := by decide
theorem test_witness_FaultingStepWritesOnlyTheRecord :
    (∃ t r, step State.reset = .next t ∧ t.fault = some r ∧ fetch State.reset = .ok 0) ∧
    (∃ t r c, step (atPc 0xFFF) = .next t ∧ t.fault = some r ∧ fetch (atPc 0xFFF) = .error c) :=
  ⟨⟨_, _, rfl, rfl, by rfl⟩, ⟨_, _, _, rfl, rfl, by rfl⟩⟩
theorem test_witness_InstructionsRaiseExactlyTheirCauses :
    RaisesIn .ret State.reset .stackUnderflow ∧ RaisesIn (.call 0x300) (depth 16) .stackOverflow ∧
    RaisesIn (.skp 4) (regs [(4, 0x10)]) (.keyIndexRange 0x10) ∧ (∀ c, ¬ RaisesIn .cls State.reset c) ∧
    (∀ c, ¬ RaisesIn (.ldVxK 0) doubleState c) :=
  ⟨⟨rfl, rfl⟩, ⟨rfl, rfl⟩, ⟨by decide, by decide⟩, fun _ h => h, fun _ h => h⟩
theorem test_witness_RunningMachineAlwaysSteps : State.reset.fault = none ∧ State.reset.Canonical := ⟨rfl, rfl⟩
theorem test_witness_ReferenceDoubleAddsTwo :
    State.reset.Canonical ∧ State.reset.fault = none ∧
    (∃ t r, exec .ret State.reset = .next t ∧ t.fault = some r) ∧
    (∃ t, exec (.ldImm 0 1) State.reset = .next t ∧ t.fault = none ∧ ∀ x, Instr.ldImm 0 1 ≠ .ldVxK x) ∧
    (∃ t, exec (.ldVxK 0) (pressed 7) = .next t ∧ t.fault = none ∧ ∃ k, (pressed 7).keyAt k = true) ∧
    (∃ t, exec (.ldVxK 0) State.reset = .next t) ∧ ∀ k, State.reset.keyAt k = false :=
  ⟨rfl, rfl, ⟨_, _, rfl, rfl⟩, ⟨_, rfl, rfl, nofun⟩, ⟨_, rfl, rfl, 7, by decide⟩, ⟨_, rfl⟩, by decide⟩
theorem test_witness_JumpToItselfIdlesForever :
    (State.reset.withFetchWord 16 0x1200).fault = none ∧ (State.reset.withFetchWord 16 0x1200).Canonical ∧
    (State.reset.withFetchWord 16 0x1200).pc.toNat = (0x200 : Addr12).toNat ∧
    fetch (State.reset.withFetchWord 16 0x1200) = .ok (encode (.jp 0x200)) := ⟨rfl, rfl, by decide, by rfl⟩
theorem test_witness_InstructionsWriteOnlyTheirOwnState :
    (∃ t, exec (.storeRegs 1) (atIndex 0x300) = .next t ∧ t.fault = none) ∧
    (∃ t r, exec (.storeRegs 1) (atIndex 0xFFF) = .next t ∧ t.fault = some r) := ⟨⟨_, rfl, rfl⟩, ⟨_, _, rfl, rfl⟩⟩
theorem test_witness_StackTouchedOnlyByCallAndReturn :
    (∀ nnn, Instr.jp 0x300 ≠ .call nnn) ∧ Instr.jp 0x300 ≠ .ret ∧ ∃ t, exec (.jp 0x300) (depth 3) = .next t :=
  ⟨nofun, by decide, _, rfl⟩
theorem test_witness_KeypadIsReadOnlyToInstructions :
    (∃ t, exec (.skp 0) (pressed 0) = .next t) ∧ Command.timerTick ≠ .reset ∧
    (∀ k p, Command.timerTick ≠ .setKey k p) ∧ (∀ x, Instr.cls ≠ .skp x) ∧ (∀ x, Instr.cls ≠ .sknp x) ∧
    (∀ x, Instr.cls ≠ .ldVxK x) :=
  ⟨⟨_, rfl⟩, by decide, nofun, nofun, nofun, nofun⟩
theorem test_witness_SoundTimerIsNeverRead : ∀ x, Instr.ldVxDt 0 ≠ .ldStVx x := nofun
theorem test_witness_StepKeepsAddressesBounded :
    AddressesBounded ((atPc 0xFFE).withFetchWord 16 0x2300) ∧
    ∃ t, step ((atPc 0xFFE).withFetchWord 16 0x2300) = .next t ∧ t.stack.get 0 = 0x1000 :=
  ⟨⟨by decide, by decide⟩, _, rfl, by decide⟩
theorem test_witness_CommandsKeepMemoryCanonical : (withBytes 0xFFF [1, 2] State.reset).mem.wf = false ∧
    (withBytes 0xFFE [1, 2] State.reset).mem.wf = true := by decide
theorem test_witness_CommandsKeepFaultRecordConsistent : FaultRecordConsistent faultedState := by
  intro r h
  cases h
  exact ⟨rfl, nofun, fun w (h : some 0x00EE = some w) => Option.some.inj h ▸ .inr ⟨.ret, by decide, rfl, rfl⟩⟩
theorem test_witness_ReadAfterWriteReturnsByte :
    memWrite [] 0xFFF 1 = .ok [(0xFFF, 1)] ∧ memWrite [] 0x1000 1 = .error (.memoryBounds 0x1000) := by decide
theorem test_witness_CanonicalMemoriesReadingAlikeAreEqual :
    Memory.wf [(0x200, 1)] ∧ Memory.wf (Memory.write [(0x200, 1), (0x201, 2)] 0x201 0) ∧
    ∀ a, a < 4096 → Memory.read [(0x200, 1)] a = (Memory.write [(0x200, 1), (0x201, 2)] 0x201 0).read a :=
  ⟨by decide, by decide, fun _ _ => rfl⟩
theorem test_witness_LoadPlacesImageOrRefuses :
    (List.replicate 3584 (1 : Byte)).length ≤ 3584 ∧ 3584 < (List.replicate 3585 (1 : Byte)).length :=
  ⟨List.length_replicate.le, List.length_replicate ▸ Nat.lt_succ_self 3584⟩
theorem test_witness_SetKeySetsOneCell : (15 : Fin 16).val = 15 ∧ 16 ≤ 16 := by decide
theorem test_witness_CommandsWorkOnFaultedMachine :
    faultedState.fault.isSome = true ∧ Command.timerTick ≠ .reset ∧ Command.timerTick ≠ .step := by decide

end Sys2Proof.Tests
end

section
/-! PROOFS. What an instruction writes (10_state.md R26, R28, R29, R38; 60_exceptions.md R154): one inversion lemma for
`exec`, and from it the frame of every part of the state. -/

namespace Sys2Proof.Machine

/-! ## Frames of the updates of one field -/

theorem fb_frame (s : State) (fb : Framebuffer) :
    OnlyChanges (fun p => ∃ x y, p = .pixel x y) s { s with fb := fb } := by
  intro p hp
  cases p with
  | pixel x y => exact absurd ⟨x, y, rfl⟩ hp
  | _ => rfl

theorem index_frame (s : State) (w : Word) : OnlyChanges (· = .index) s { s with I := w } := by
  intro p hp
  cases p with
  | index => exact absurd rfl hp
  | _ => rfl

theorem sp_frame (s : State) (sp : Fin 17) : OnlyChanges (· = .sp) s { s with sp := sp } := by
  intro p hp
  cases p with
  | sp => exact absurd rfl hp
  | _ => rfl

theorem delayTimer_frame (s : State) (b : Byte) : OnlyChanges (· = .delayTimer) s { s with dt := b } := by
  intro p hp
  cases p with
  | delayTimer => exact absurd rfl hp
  | _ => rfl

theorem soundTimer_frame (s : State) (b : Byte) : OnlyChanges (· = .soundTimer) s { s with st := b } := by
  intro p hp
  cases p with
  | soundTimer => exact absurd rfl hp
  | _ => rfl

theorem draws_frame (s : State) (n : Nat) : OnlyChanges (· = .draws) s { s with draws := n } := by
  intro p hp
  cases p with
  | draws => exact absurd rfl hp
  | _ => rfl

/-- A write of the program counter after other writes adds `pc` to the frame, in the shape of `MayWrite`. -/
theorem OnlyChanges.goto {w : Part → Prop} {s t : State} (h : OnlyChanges w s t) (q : Word) :
    OnlyChanges (fun p => p = .pc ∨ w p) s (t.goto q) :=
  (h.trans (State.goto_frame t q)).mono fun _ => Or.symm

/-! ## Frames of the stack operations -/

theorem State.push_frame {s t : State} {w : Word} (h : s.push w = .ok t) :
    OnlyChanges (fun p => p = .sp ∨ ∃ k, p = .stackCell k ∧ k.val = s.sp.val) s t := by
  obtain ⟨-, u, hu, -, hstack, heq⟩ | ⟨-, herr⟩ := s.push_cases w
  · obtain rfl := Except.ok.inj (hu.symm.trans h)
    intro p hp
    cases p with
    | sp => exact absurd (.inl rfl) hp
    | stackCell k =>
      have hk : k.val ≠ s.sp.val := fun hk => hp (.inr ⟨k, rfl, hk⟩)
      exact (hstack k).trans (if_neg hk)
    | _ => rw [heq]; rfl
  · exact absurd (herr.symm.trans h) nofun

theorem State.pop_frame {s t : State} {w : Word} (h : s.pop = .ok (w, t)) : OnlyChanges (· = .sp) s t := by
  obtain ⟨k, u, -, hu, -, heq⟩ | ⟨-, herr⟩ := s.pop_cases
  · obtain ⟨-, rfl⟩ := Prod.mk.inj (Except.ok.inj (hu.symm.trans h))
    rw [heq]
    exact sp_frame s _
  · exact absurd (herr.symm.trans h) nofun

/-! ## Causes of the bounded operations -/

theorem State.push_error {s : State} {w : Word} {c : FaultCause} (h : s.push w = .error c) :
    s.sp.val = 16 ∧ c = .stackOverflow := by
  obtain ⟨-, u, hu, -⟩ | ⟨hsp, herr⟩ := s.push_cases w
  · exact absurd (hu.symm.trans h) nofun
  · exact ⟨hsp, Except.error.inj (h.symm.trans herr)⟩

theorem State.pop_error {s : State} {c : FaultCause} (h : s.pop = .error c) : s.sp.val = 0 ∧ c = .stackUnderflow := by
  obtain ⟨k, u, -, hu, -⟩ | ⟨hsp, herr⟩ := s.pop_cases
  · exact absurd (hu.symm.trans h) nofun
  · exact ⟨hsp, Except.error.inj (h.symm.trans herr)⟩

theorem State.keyOf_error {s : State} {vx : Byte} {c : FaultCause} (h : s.keyOf vx = .error c) :
    16 ≤ vx.toNat ∧ c = .keyIndexRange vx := by
  obtain ⟨k, -, hk⟩ | ⟨hvx, herr⟩ := s.keyOf_cases vx
  · exact absurd (hk.symm.trans h) nofun
  · exact ⟨hvx, Except.error.inj (h.symm.trans herr)⟩

theorem firstOutOfRange_of_readBlock {s : State} {n : Nat} {c : FaultCause}
    (h : readBlock s.mem s.I.toNat n = .error c) : FirstOutOfRange s n c := by
  obtain ⟨-, bs, hbs, -⟩ | ⟨k, hk, hout, hlow, herr⟩ := readBlock_cases s.mem s.I.toNat n
  · exact absurd (hbs.symm.trans h) nofun
  · exact ⟨k, hk, hout, hlow, Except.error.inj (h.symm.trans herr)⟩

theorem length_of_readBlock {m : Memory} {a n : Nat} {bs : List Byte} (h : readBlock m a n = .ok bs) :
    bs.length = n := by
  obtain ⟨-, bs', hbs, hlen, -⟩ | ⟨k, -, -, -, herr⟩ := readBlock_cases m a n
  · exact Except.ok.inj (hbs.symm.trans h) ▸ hlen
  · exact absurd (herr.symm.trans h) nofun

theorem firstOutOfRange_of_writeBlock {s : State} {bs : List Byte} {c : FaultCause}
    (h : writeBlock s.mem s.I.toNat bs = .error c) : FirstOutOfRange s bs.length c := by
  obtain ⟨-, hok⟩ | ⟨k, hk, hout, hlow, herr⟩ := writeBlock_cases s.mem s.I.toNat bs
  · exact absurd (hok.symm.trans h) nofun
  · exact ⟨k, hk, hout, hlow, Except.error.inj (h.symm.trans herr)⟩

theorem eq_writeBytes_of_writeBlock {m m' : Memory} {a : Nat} {bs : List Byte} (h : writeBlock m a bs = .ok m') :
    m' = m.writeBytes a bs := by
  obtain ⟨-, hok⟩ | ⟨k, -, -, -, herr⟩ := writeBlock_cases m a bs
  · exact Except.ok.inj (h.symm.trans hok)
  · exact absurd (herr.symm.trans h) nofun

/-! ## The meanings that may fault, as one access followed by a pure update -/

theorem execRet_eq (s : State) : execRet s = finish .ret s (s.pop.map fun r => r.2.goto r.1) := by
  unfold execRet
  cases s.pop <;> rfl

theorem execCall_eq (nnn : Addr12) (s : State) :
    execCall nnn s = finish (.call nnn) s ((s.push (s.pc + 2)).map fun t => t.goto (zextAddr nnn)) := by
  unfold execCall
  cases s.push (s.pc + 2) <;> rfl

/-- The state `DRW` computes from the sprite rows it has read (44_display.md R131). -/
def drawRows (x y : RegIdx) (s : State) (rows : List Byte) : State :=
  let d := xorRows (s.reg x) (s.reg y) 0 rows (s.fb, false)
  ({ s with fb := d.1 }.setFlag d.2).advance

theorem execDrw_eq (x y : RegIdx) (n : Fin 16) (s : State) :
    execDrw x y n s = finish (.drw x y n) s ((readBlock s.mem s.I.toNat n.val).map (drawRows x y s)) := by
  unfold execDrw
  cases readBlock s.mem s.I.toNat n.val <;> rfl

theorem storeAtIndex_eq (i : Instr) (bs : List Byte) (s : State) :
    storeAtIndex i bs s =
      finish i s ((writeBlock s.mem s.I.toNat bs).map fun m => { s with mem := m }.advance) := by
  unfold storeAtIndex
  cases writeBlock s.mem s.I.toNat bs <;> rfl

theorem execLoadRegs_eq (x : RegIdx) (s : State) :
    execLoadRegs x s =
      finish (.loadRegs x) s
        ((readBlock s.mem s.I.toNat (x.val + 1)).map fun bs => (s.loadRegsFrom bs).advance) := by
  unfold execLoadRegs
  cases readBlock s.mem s.I.toNat (x.val + 1) <;> rfl

theorem skipOnKey_eq (i : Instr) (x : RegIdx) (level : Bool) (s : State) :
    skipOnKey i x level s = finish i s ((s.keyOf (s.reg x)).map fun k => s.skipIf (k == level)) := by
  unfold skipOnKey
  cases s.keyOf (s.reg x) <;> rfl

/-! ## What a next outcome can be -/

/-- The two things a step of an instruction may do: write its own parts of the state, or record one of its causes and
nothing else. -/
def WritesOwnOrRaises (i : Instr) (s t : State) : Prop :=
  OnlyChanges (MayWrite i s) s t ∨ ∃ c, RaisesIn i s c ∧ t = raise c (some (encode i)) s

/-- An access followed by a pure update: enough that the update keeps the frame and the access reports its cause. -/
theorem finish_map_writesOwnOrRaises {α : Type} {i : Instr} {s t : State} {r : Except FaultCause α} {f : α → State}
    (h : finish i s (r.map f) = .next t) (hok : ∀ a, r = .ok a → OnlyChanges (MayWrite i s) s (f a))
    (herr : ∀ c, r = .error c → RaisesIn i s c) : WritesOwnOrRaises i s t := by
  cases r with
  | ok a => exact .inl (Host.Outcome.next.inj h ▸ hok a rfl)
  | error c => exact .inr ⟨c, herr c rfl, (Host.Outcome.next.inj h).symm⟩

theorem writeResult_frame {s t : State} {x : RegIdx} {b : Byte} (h : writeResult x b s = .next t) :
    OnlyChanges (fun p => p = .pc ∨ p = .reg x) s t :=
  Host.Outcome.next.inj h ▸ (State.setReg_frame s x b).goto _

theorem writeResultAndFlag_frame {s t : State} {x : RegIdx} {b : Byte} {f : Bool}
    (h : writeResultAndFlag x b f s = .next t) :
    OnlyChanges (fun p => p = .pc ∨ p = .reg x ∨ p = .reg 0xF) s t :=
  Host.Outcome.next.inj h ▸ ((State.setReg_frame s x b).trans (State.setFlag_frame _ f)).goto _

/-- A draw taken into a register (42_alu.md R112, 45_keys_timers.md R145). -/
theorem drawToReg_frame (s : State) (x : RegIdx) (b : Byte) :
    OnlyChanges (fun p => p = .pc ∨ p = .reg x ∨ p = .draws) s
      ({ s with draws := s.draws + 1 }.setReg x b).advance :=
  (((draws_frame s _).trans (State.setReg_frame _ x b)).mono fun _ => Or.symm).goto _

/-- A meaning that only moves the program counter. -/
theorem pc_only_frame (s : State) (q : Word) : OnlyChanges (fun p => p = .pc ∨ False) s (s.goto q) :=
  (OnlyChanges.refl _ s).goto q

theorem execSys_writesOwnOrRaises {nnn : Addr12} {s t : State} (h : execSys nnn s = .next t) :
    WritesOwnOrRaises (.sys nnn) s t := by
  unfold execSys at h
  cases hp : s.config.sysPolicy with
  | fault =>
    rw [hp] at h
    exact .inr ⟨_, ⟨hp, rfl⟩, (Host.Outcome.next.inj h).symm⟩
  | noOp =>
    rw [hp] at h
    exact .inl (Host.Outcome.next.inj h ▸ pc_only_frame s _)

theorem execRet_writesOwnOrRaises {s t : State} (h : execRet s = .next t) : WritesOwnOrRaises .ret s t :=
  finish_map_writesOwnOrRaises (execRet_eq s ▸ h) (fun _ hr => (State.pop_frame hr).goto _)
    (fun _ => State.pop_error)

theorem execCall_writesOwnOrRaises {nnn : Addr12} {s t : State} (h : execCall nnn s = .next t) :
    WritesOwnOrRaises (.call nnn) s t :=
  finish_map_writesOwnOrRaises (execCall_eq nnn s ▸ h) (fun _ hr => (State.push_frame hr).goto _)
    (fun _ => State.push_error)

theorem drawRows_frame (x y : RegIdx) (n : Fin 16) (s : State) (rows : List Byte) :
    OnlyChanges (MayWrite (.drw x y n) s) s (drawRows x y s rows) :=
  (((fb_frame s _).trans (State.setFlag_frame _ _)).mono fun _ => Or.symm).goto _

theorem execDrw_writesOwnOrRaises {x y : RegIdx} {n : Fin 16} {s t : State} (h : execDrw x y n s = .next t) :
    WritesOwnOrRaises (.drw x y n) s t :=
  finish_map_writesOwnOrRaises (execDrw_eq x y n s ▸ h) (fun rows _ => drawRows_frame x y n s rows)
    (fun _ => firstOutOfRange_of_readBlock)

/-- A store of bytes from `I` up writes those cells and the program counter. -/
theorem store_frame {s : State} {bs : List Byte} {m : Memory} (h : writeBlock s.mem s.I.toNat bs = .ok m) :
    OnlyChanges (fun p => p = .pc ∨ ∃ k, k < bs.length ∧ p = .mem (s.I.toNat + k)) s
      { s with mem := m }.advance :=
  eq_writeBytes_of_writeBlock h ▸ (writeBytes_frame s s.I.toNat bs).goto _

theorem execLdB_writesOwnOrRaises {x : RegIdx} {s t : State} (h : execLdB x s = .next t) :
    WritesOwnOrRaises (.ldB x) s t :=
  finish_map_writesOwnOrRaises ((storeAtIndex_eq (.ldB x) _ s).symm.trans h) (fun _ hr => store_frame hr)
    (fun _ => firstOutOfRange_of_writeBlock)

theorem execStoreRegs_writesOwnOrRaises {x : RegIdx} {s t : State} (h : execStoreRegs x s = .next t) :
    WritesOwnOrRaises (.storeRegs x) s t := by
  refine finish_map_writesOwnOrRaises ((storeAtIndex_eq (.storeRegs x) _ s).symm.trans h)
    (fun _ hr => ?_) (fun _ hr => ?_)
  · refine (store_frame hr).mono fun p => Or.imp_right ?_
    rintro ⟨k, hk, hp⟩
    rw [State.length_regsUpTo] at hk
    exact ⟨k, Nat.le_of_lt_succ hk, hp⟩
  · have hout := firstOutOfRange_of_writeBlock hr
    rwa [State.length_regsUpTo] at hout

theorem execLoadRegs_writesOwnOrRaises {x : RegIdx} {s t : State} (h : execLoadRegs x s = .next t) :
    WritesOwnOrRaises (.loadRegs x) s t := by
  refine finish_map_writesOwnOrRaises (execLoadRegs_eq x s ▸ h) (fun bs hr => ?_)
    (fun _ => firstOutOfRange_of_readBlock)
  refine ((State.loadRegsFrom_frame s bs).mono ?_).goto _
  rintro p ⟨r, hlt, hp⟩
  rw [length_of_readBlock hr] at hlt
  exact ⟨r, Nat.le_of_lt_succ hlt, hp⟩

/-- `SKP` and `SKNP` (45_keys_timers.md R140, R141), by the table's rows for them. -/
theorem skipOnKey_writesOwnOrRaises {i : Instr} {x : RegIdx} {level : Bool} {s t : State}
    (hw : ∀ p, p = .pc → MayWrite i s p)
    (hr : ∀ c, 16 ≤ (s.reg x).toNat ∧ c = .keyIndexRange (s.reg x) → RaisesIn i s c)
    (h : skipOnKey i x level s = .next t) : WritesOwnOrRaises i s t :=
  finish_map_writesOwnOrRaises (skipOnKey_eq i x level s ▸ h) (fun _ _ => (State.skipIf_frame s _).mono hw)
    (fun c hc => hr c (State.keyOf_error hc))

theorem execLdVxK_writesOwnOrRaises {x : RegIdx} {s t : State} (h : execLdVxK x s = .next t) :
    WritesOwnOrRaises (.ldVxK x) s t := by
  unfold execLdVxK at h
  split at h
  · exact .inl (Host.Outcome.next.inj h ▸ drawToReg_frame s x _)
  · split at h
    · exact .inl (Host.Outcome.next.inj h ▸ (State.goto_frame s _).mono fun _ => Or.inl)
    · cases h

/-- Everything an instruction that answers a next state can do (10_state.md R38, 60_exceptions.md R154). -/
theorem exec_writesOwnOrRaises {i : Instr} {s t : State} (h : exec i s = .next t) : WritesOwnOrRaises i s t := by
  cases i with
  | sys nnn => exact execSys_writesOwnOrRaises h
  | ret => exact execRet_writesOwnOrRaises h
  | call nnn => exact execCall_writesOwnOrRaises h
  | jp | seImm | sneImm | seReg | sneReg | jpV0 =>
    exact .inl (Host.Outcome.next.inj h ▸ pc_only_frame s _)
  | ldImm | addImm | ldReg | orReg | andReg | xorReg => exact .inl (writeResult_frame h)
  | addReg | sub | shr | subn | shl => exact .inl (writeResultAndFlag_frame h)
  | rnd x nn => exact .inl (Host.Outcome.next.inj h ▸ drawToReg_frame s x _)
  | cls => exact .inl (Host.Outcome.next.inj h ▸ (fb_frame s _).goto _)
  | drw x y n => exact execDrw_writesOwnOrRaises h
  | ldI | addI | ldF => exact .inl (Host.Outcome.next.inj h ▸ (index_frame s _).goto _)
  | ldB x => exact execLdB_writesOwnOrRaises h
  | storeRegs x => exact execStoreRegs_writesOwnOrRaises h
  | loadRegs x => exact execLoadRegs_writesOwnOrRaises h
  | skp x | sknp x => exact skipOnKey_writesOwnOrRaises (fun _ => Or.inl) (fun _ => id) h
  | ldVxDt x => exact .inl (Host.Outcome.next.inj h ▸ (State.setReg_frame s x _).goto _)
  | ldVxK x => exact execLdVxK_writesOwnOrRaises h
  | ldDtVx x => exact .inl (Host.Outcome.next.inj h ▸ (delayTimer_frame s _).goto _)
  | ldStVx x => exact .inl (Host.Outcome.next.inj h ▸ (soundTimer_frame s _).goto _)

/-- Settles O43: the inversion of `exec`, with the recorded fault read off. -/
theorem instructionsWriteOnlyTheirOwnState : Obligations.InstructionsWriteOnlyTheirOwnState := by
  intro i s t h
  obtain hown | ⟨c, hc, rfl⟩ := exec_writesOwnOrRaises h
  · exact .inl hown
  · exact .inr ⟨c, hc, rfl, raise_frame c _ s⟩

/-! ## What no instruction but its own writes -/

/-- A part that the table does not give to an instruction, the fault record apart, is the same after it. -/
theorem exec_same {i : Instr} {s t : State} (h : exec i s = .next t) {p : Part} (hfault : p ≠ .fault)
    (hp : ¬ MayWrite i s p) : p.Same s t := by
  obtain hown | ⟨c, -, rfl⟩ := exec_writesOwnOrRaises h
  · exact hown p hp
  · exact raise_frame c _ s p hfault

theorem display_of_mayWrite_pixel {i : Instr} {s : State} {x : Fin 64} {y : Fin 32}
    (h : MayWrite i s (.pixel x y)) : i = .cls ∨ ∃ x y n, i = .drw x y n := by
  cases i with
  | cls => exact .inl rfl
  | drw x y n => exact .inr ⟨x, y, n, rfl⟩
  | _ => simp [MayWrite] at h

theorem not_mayWrite_key (i : Instr) (s : State) (k : Fin 16) : ¬ MayWrite i s (.key k) := by
  cases i <;> simp [MayWrite]

theorem not_mayWrite_stack {i : Instr} {s : State} (hcall : ∀ nnn, i ≠ .call nnn) (hret : i ≠ .ret) :
    ¬ MayWrite i s .sp ∧ ∀ k, ¬ MayWrite i s (.stackCell k) := by
  cases i with
  | call nnn => exact absurd rfl (hcall nnn)
  | ret => exact absurd rfl hret
  | _ => simp [MayWrite]

theorem exec_keeps_key {i : Instr} {s t : State} (h : exec i s = .next t) : t.key = s.key :=
  Vector.ext fun k hk => exec_same h (p := .key ⟨k, hk⟩) nofun (not_mayWrite_key i s _)

theorem exec_keeps_stack {i : Instr} {s t : State} (hcall : ∀ nnn, i ≠ .call nnn) (hret : i ≠ .ret)
    (h : exec i s = .next t) : t.stack = s.stack ∧ t.sp = s.sp := by
  obtain ⟨hsp, hcell⟩ := not_mayWrite_stack (s := s) hcall hret
  exact ⟨Vector.ext fun k hk => exec_same h (p := .stackCell ⟨k, hk⟩) nofun (hcell _),
    exec_same h (p := .sp) nofun hsp⟩

/-! ## What the commands leave unchanged -/

/-- The load command replaces the memory and nothing else. -/
theorem loadProgram_eq (image : List Byte) (s : State) :
    (loadProgram image s).1 = { s with mem := (loadProgram image s).1.mem } := by
  unfold loadProgram
  split <;> rfl

theorem loadProgram_fb (image : List Byte) (s : State) : (loadProgram image s).1.fb = s.fb := by rw [loadProgram_eq]

theorem loadProgram_key (image : List Byte) (s : State) : (loadProgram image s).1.key = s.key := by
  rw [loadProgram_eq]

/-- The state after a step command is the step's next state, or the state before. -/
theorem stepCommand_cases (s : State) : step s = .next (stepCommand s).1 ∨ (stepCommand s).1 = s := by
  unfold stepCommand
  cases step s with
  | next t => exact .inl (by dsimp only; split <;> rfl)
  | fault r => exact .inr rfl
  | refused r => exact .inr rfl

theorem step_keeps_key {s t : State} (h : step s = .next t) : t.key = s.key := by
  obtain ⟨-, ⟨c, -, rfl⟩ | ⟨w, e, -, -, rfl⟩ | ⟨w, i, -, -, hexec⟩⟩ := step_next h
  · rfl
  · rfl
  · exact exec_keeps_key hexec

theorem stepCommand_keeps_key (s : State) : (stepCommand s).1.key = s.key :=
  (stepCommand_cases s).elim step_keeps_key (congrArg State.key)

/-- Settles O29: a changed cell is one the instruction may write, and the commands are taken one by one. -/
theorem framebufferWrittenOnlyByDisplayInstructions : Obligations.FramebufferWrittenOnlyByDisplayInstructions := by
  refine ⟨?_, fun c s hreset hstep => ?_⟩
  · rintro i s t h ⟨px, py, hne⟩
    by_contra hi
    exact hne (exec_same h (p := .pixel px py) nofun (mt display_of_mayWrite_pixel hi))
  · cases c with
    | reset => exact absurd rfl hreset
    | step => exact absurd rfl hstep
    | load image => exact loadProgram_fb image s
    | timerTick | setKey | readDisplay => rfl

end Sys2Proof.Machine
end

section
/-! PROOFS. What an instruction reads (10_state.md R26, R29, R30, R35): replacing the stack, the keypad or the sound
timer before an instruction that does not read it is the same as replacing it after. -/

namespace Sys2Proof.Machine

/-- A replacement of the stack, the stack pointer, the keypad and the sound timer, each by a function of its old value:
a constant for a part that is replaced, the identity for one that is kept. -/
structure Patch where
  stack : Vector Word 16 → Vector Word 16
  sp    : Fin 17 → Fin 17
  key   : Vector Bool 16 → Vector Bool 16
  st    : Byte → Byte

/-- The state with a patch applied. -/
def State.patch (u : Patch) (s : State) : State :=
  { s with stack := u.stack s.stack, sp := u.sp s.sp, key := u.key s.key, st := u.st s.st }

@[simp] theorem State.patch_pc (u : Patch) (s : State) : (s.patch u).pc = s.pc := rfl
@[simp] theorem State.patch_config (u : Patch) (s : State) : (s.patch u).config = s.config := rfl

/-- The patch leaves the stack and the stack pointer as they are. -/
def Patch.KeepsStack (u : Patch) : Prop := u.stack = id ∧ u.sp = id

/-- `finish` commutes with a patch when the computation it finishes does. -/
theorem finish_patch {i : Instr} {s : State} {u : Patch} {r r' : Except FaultCause State}
    (h : r' = r.map (State.patch u)) : finish i (s.patch u) r' = mapNext (State.patch u) (finish i s r) := by
  subst h
  cases r <;> rfl

/-- An access that a patch does not touch, followed by an update that commutes with it. -/
theorem finish_map_patch {α : Type} {i : Instr} {s : State} {u : Patch} {r : Except FaultCause α}
    {f f' : α → State}
    (h : ∀ a, f' a = (f a).patch u) :
    finish i (s.patch u) (r.map f') = mapNext (State.patch u) (finish i s (r.map f)) :=
  finish_patch (by
    cases r with
    | ok a => exact congrArg Except.ok (h a)
    | error c => rfl)

theorem State.pop_patch {u : Patch} (hu : u.KeepsStack) (s : State) :
    (s.patch u).pop = s.pop.map fun r => (r.1, r.2.patch u) := by
  obtain ⟨stack, sp, key, st⟩ := u
  obtain ⟨rfl, rfl⟩ := hu
  by_cases h : s.sp.val = 0
  · simp only [State.pop, dif_pos h]
    exact dif_pos h
  · simp only [State.pop, dif_neg h]
    exact dif_neg h

theorem State.push_patch {u : Patch} (hu : u.KeepsStack) (s : State) (w : Word) :
    (s.patch u).push w = (s.push w).map (State.patch u) := by
  obtain ⟨stack, sp, key, st⟩ := u
  obtain ⟨rfl, rfl⟩ := hu
  by_cases h : s.sp.val < 16
  · simp only [State.push, dif_pos h]
    exact dif_pos h
  · simp only [State.push, dif_neg h]
    exact dif_neg h

theorem execSys_patch (nnn : Addr12) (u : Patch) (s : State) :
    execSys nnn (s.patch u) = mapNext (State.patch u) (execSys nnn s) := by
  unfold execSys
  rw [State.patch_config]
  cases s.config.sysPolicy <;> rfl

theorem execRet_patch {u : Patch} (hu : u.KeepsStack) (s : State) :
    execRet (s.patch u) = mapNext (State.patch u) (execRet s) := by
  rw [execRet_eq, execRet_eq, State.pop_patch hu]
  exact finish_patch (by cases s.pop <;> rfl)

theorem execCall_patch {u : Patch} (hu : u.KeepsStack) (nnn : Addr12) (s : State) :
    execCall nnn (s.patch u) = mapNext (State.patch u) (execCall nnn s) := by
  rw [execCall_eq, execCall_eq, State.patch_pc, State.push_patch hu]
  exact finish_patch (by cases s.push (s.pc + 2) <;> rfl)

theorem storeAtIndex_patch (i : Instr) (bs : List Byte) (u : Patch) (s : State) :
    storeAtIndex i bs (s.patch u) = mapNext (State.patch u) (storeAtIndex i bs s) := by
  rw [storeAtIndex_eq, storeAtIndex_eq]
  exact finish_map_patch fun _ => rfl

theorem execDrw_patch (x y : RegIdx) (n : Fin 16) (u : Patch) (s : State) :
    execDrw x y n (s.patch u) = mapNext (State.patch u) (execDrw x y n s) := by
  rw [execDrw_eq, execDrw_eq]
  exact finish_map_patch fun _ => rfl

theorem execLoadRegs_patch (x : RegIdx) (u : Patch) (s : State) :
    execLoadRegs x (s.patch u) = mapNext (State.patch u) (execLoadRegs x s) := by
  rw [execLoadRegs_eq, execLoadRegs_eq]
  exact finish_map_patch fun _ => rfl

theorem State.keyOf_patch {u : Patch} (hu : u.key = id) (s : State) (vx : Byte) :
    (s.patch u).keyOf vx = s.keyOf vx := by
  simp [State.keyOf, State.keyAt, State.patch, hu]

theorem State.anyKey_patch {u : Patch} (hu : u.key = id) (s : State) : (s.patch u).anyKey = s.anyKey := by
  simp [State.anyKey, State.patch, hu]

theorem skipOnKey_patch {u : Patch} (hu : u.key = id) (i : Instr) (x : RegIdx) (level : Bool) (s : State) :
    skipOnKey i x level (s.patch u) = mapNext (State.patch u) (skipOnKey i x level s) := by
  rw [skipOnKey_eq, skipOnKey_eq, State.keyOf_patch hu]
  exact finish_map_patch fun _ => rfl

theorem execLdVxK_patch {u : Patch} (hu : u.key = id) (x : RegIdx) (s : State) :
    execLdVxK x (s.patch u) = mapNext (State.patch u) (execLdVxK x s) := by
  unfold execLdVxK
  rw [State.anyKey_patch hu, State.patch_config]
  split
  · rfl
  · cases s.config.pcContract <;> rfl

/-- An instruction runs alike under every patch that keeps the parts it reads: the stack for `CALL` and `RET`, the
keypad for `SKP`, `SKNP` and `LD Vx, K`. `LD ST, Vx` replaces a patched part without reading it. -/
theorem exec_patch {i : Instr} {u : Patch}
    (hcall : ∀ nnn, i = .call nnn → u.KeepsStack) (hret : i = .ret → u.KeepsStack)
    (hskp : ∀ x, i = .skp x → u.key = id) (hsknp : ∀ x, i = .sknp x → u.key = id)
    (hwait : ∀ x, i = .ldVxK x → u.key = id) (hst : ∀ x, i = .ldStVx x → u.st = id) (s : State) :
    exec i (s.patch u) = mapNext (State.patch u) (exec i s) := by
  cases i with
  | sys nnn => exact execSys_patch nnn u s
  | ret => exact execRet_patch (hret rfl) s
  | call nnn => exact execCall_patch (hcall nnn rfl) nnn s
  | drw x y n => exact execDrw_patch x y n u s
  | skp x => exact skipOnKey_patch (hskp x rfl) _ x true s
  | sknp x => exact skipOnKey_patch (hsknp x rfl) _ x false s
  | ldVxK x => exact execLdVxK_patch (hwait x rfl) x s
  | ldStVx x =>
    obtain ⟨stack, sp, key, st⟩ := u
    obtain rfl := hst x rfl
    rfl
  | ldB x => exact storeAtIndex_patch (.ldB x) (decimalDigits (s.reg x)) u s
  | storeRegs x => exact storeAtIndex_patch (.storeRegs x) (s.regsUpTo x) u s
  | loadRegs x => exact execLoadRegs_patch x u s
  | _ => rfl

/-- The patch that replaces the stack and the stack pointer. -/
def Patch.ofStack (stack : Vector Word 16) (sp : Fin 17) : Patch := ⟨fun _ => stack, fun _ => sp, id, id⟩

/-- The patch that replaces the keypad. -/
def Patch.ofKey (key : Vector Bool 16) : Patch := ⟨id, id, fun _ => key, id⟩

/-- The patch that replaces the sound timer. -/
def Patch.ofSoundTimer (b : Byte) : Patch := ⟨id, id, id, fun _ => b⟩

/-- Settles O44: the frame of `exec`, and `exec` under a patch of the stack. -/
theorem stackTouchedOnlyByCallAndReturn : Obligations.StackTouchedOnlyByCallAndReturn := by
  intro i s stack sp hcall hret
  refine ⟨fun t => exec_keeps_stack hcall hret, ?_⟩
  exact exec_patch (u := .ofStack stack sp) (fun nnn h => absurd h (hcall nnn)) (fun h => absurd h hret)
    (fun _ _ => rfl) (fun _ _ => rfl) (fun _ _ => rfl) (fun _ _ => rfl) s

/-- Settles O45: the frame of `exec` and of each command, and `exec` under a patch of the keypad. -/
theorem keypadIsReadOnlyToInstructions : Obligations.KeypadIsReadOnlyToInstructions := by
  refine ⟨fun i s t => exec_keeps_key, fun c s hreset hset => ?_, fun i s key hskp hsknp hwait => ?_⟩
  · cases c with
    | reset => exact absurd rfl hreset
    | setKey k p => exact absurd rfl (hset k p)
    | load image => exact loadProgram_key image s
    | step => exact stepCommand_keeps_key s
    | timerTick | readDisplay => rfl
  · exact exec_patch (u := .ofKey key) (fun _ _ => ⟨rfl, rfl⟩) (fun _ => ⟨rfl, rfl⟩)
      (fun x h => absurd h (hskp x)) (fun x h => absurd h (hsknp x)) (fun x h => absurd h (hwait x))
      (fun _ _ => rfl) s

/-- Settles O46: `exec` under a patch of the sound timer, and the one instruction that replaces it. -/
theorem soundTimerIsNeverRead : Obligations.SoundTimerIsNeverRead := by
  refine fun i s b => ⟨fun hst => ?_, ?_⟩
  · exact exec_patch (u := .ofSoundTimer b) (fun _ _ => ⟨rfl, rfl⟩) (fun _ => ⟨rfl, rfl⟩) (fun _ _ => rfl)
      (fun _ _ => rfl) (fun _ _ => rfl) (fun x h => absurd h (hst x)) s
  · rintro x rfl
    rfl

end Sys2Proof.Machine
end

section
/-! PROOFS. Read after write (20_memory.md R43, R50, R53): what a bounded write answers, the registers stored by
`LD [I], Vx` read back from memory, and the fetch that meets them. -/

namespace Sys2Proof.Machine

/-- A bounded write that answers a memory was inside the space and wrote its byte (20_memory.md R43). -/
theorem memWrite_inv {m m' : Memory} {a : Nat} {v : Byte} (h : memWrite m a v = .ok m') :
    a < memSize ∧ m' = m.write a v := by
  unfold memWrite at h
  split at h
  case isTrue ha => exact ⟨ha, (Except.ok.inj h).symm⟩
  case isFalse => cases h

/-- Settles O51: the write was inside the space, and reading after it is the law of `Memory.write`. -/
theorem readAfterWriteReturnsByte : Obligations.ReadAfterWriteReturnsByte := by
  intro m m' a b v h
  obtain ⟨ha, rfl⟩ := memWrite_inv h
  exact ⟨ha, Memory.read_write m a v b⟩

/-- `V0` to `Vx` written from `a` up: the byte at `a + r` is `Vr` (43_index_memory.md R124). -/
theorem read_writeBytes_regsUpTo (s : State) (m : Memory) (a : Nat) {r x : RegIdx} (h : r ≤ x) :
    (m.writeBytes a (s.regsUpTo x)).read (a + r.val) = s.reg r := by
  have hin : a ≤ a + r.val ∧ a + r.val < a + (s.regsUpTo x).length := by
    rw [State.length_regsUpTo]
    exact ⟨Nat.le_add_right a r.val, Nat.add_lt_add_left (Nat.lt_succ_of_le h) a⟩
  rw [Memory.read_writeBytes, if_pos hin, Nat.add_sub_cancel_left, State.getD_regsUpTo s x r h]

/-- `LD [I], Vx` with its last address inside the space completes: the registers are in memory, and the program counter
moves on (43_index_memory.md R124). -/
theorem exec_storeRegs_of_inside {s : State} {x : RegIdx} (h : s.I.toNat + x.val < memSize) :
    exec (.storeRegs x) s = .next { s with mem := s.mem.writeBytes s.I.toNat (s.regsUpTo x) }.advance := by
  have hexec := storeAtIndex_eq (.storeRegs x) (s.regsUpTo x) s
  obtain ⟨-, hok⟩ | ⟨k, hk, hout, -⟩ := writeBlock_cases s.mem s.I.toNat (s.regsUpTo x)
  · rw [hok] at hexec
    exact hexec
  · rw [State.length_regsUpTo] at hk
    omega

/-- A completed `LD [I], Vx` leaves `Vr` at `I + r` for every `r` up to `x` (43_index_memory.md R124). -/
theorem read_of_exec_storeRegs {s t : State} {r x : RegIdx} (hin : s.I.toNat + x.val < memSize)
    (h : exec (.storeRegs x) s = .next t) (hr : r ≤ x) : t.mem.read (s.I.toNat + r.val) = s.reg r := by
  obtain rfl := Host.Outcome.next.inj ((exec_storeRegs_of_inside hin).symm.trans h)
  exact read_writeBytes_regsUpTo s s.mem s.I.toNat hr

/-- Settles O25: the fetched bytes are at `I + k` and `I + (k + 1)`, where the store put `Vk` and its successor. -/
theorem storeIsSeenByNextFetch : Obligations.StoreIsSeenByNextFetch := by
  intro x k s t hk hin hexec hpc
  have hsucc : (k + 1).val = k.val + 1 := Fin.val_add_one_of_lt (hk.trans_le x.le_last)
  have hhi := read_of_exec_storeRegs hin hexec hk.le
  have hlo := read_of_exec_storeRegs hin hexec (Fin.add_one_le_of_lt hk)
  have hfetch : t.pc.toNat + 1 < memSize :=
    calc t.pc.toNat + 1 = s.I.toNat + (k.val + 1) := by rw [hpc, Nat.add_assoc]
      _ ≤ s.I.toNat + x.val := Nat.add_le_add_left hk _
      _ < memSize := hin
  rw [fetch_ok hfetch, hpc, hhi, Nat.add_assoc, ← hsucc, hlo]

end Sys2Proof.Machine
end

section
/-! PROOFS. The decoder and the encoder are inverse (30_encoding.md R59, R60): the word of an instruction decodes to it,
and a word that decodes is packed again from its own fields. -/

namespace Sys2Proof

theorem wellFormed_sys_iff (nnn : Addr12) : (Instr.sys nnn).WellFormed ↔ nnn ≠ 0x0E0#12 ∧ nnn ≠ 0x0EE#12 := by
  rw [Instr.WellFormed, Instr.wellFormed, Bool.and_eq_true, bne_iff_ne, bne_iff_ne]

/-! ## The word of an instruction decodes to it -/

theorem fieldNN_packXNN_byte {f : Nat} (hf : f < 16) (x : RegIdx) (nn : Byte) :
    fieldNN (packXNN f x nn.toNat) = nn :=
  BitVec.eq_of_toNat_eq (fieldNN_packXNN hf nn.isLt x)

/-- The decoder undoes the encoder, format by format (30_encoding.md R57, R60). -/
theorem decodeWord_encode {i : Instr} (h : i.WellFormed) : decodeWord (encode i) = .ok i := by
  cases i with
  | sys nnn =>
    obtain ⟨hcls, hret⟩ := (wellFormed_sys_iff nnn).mp h
    have hNNN := fieldNNN_packNNN (f := 0) (by decide) nnn
    have hE0 : packNNN 0x0 nnn ≠ 0x00E0#16 := fun heq => hcls (hNNN.symm.trans (congrArg fieldNNN heq))
    have hEE : packNNN 0x0 nnn ≠ 0x00EE#16 := fun heq => hret (hNNN.symm.trans (congrArg fieldNNN heq))
    simp [encode, decodeWord, decodeFamily0, fieldF_packNNN, hNNN, hE0, hEE]
  | cls | ret => rfl
  | jp nnn | call nnn | ldI nnn | jpV0 nnn => simp [encode, decodeWord, fieldF_packNNN, fieldNNN_packNNN]
  | seImm x nn | sneImm x nn | ldImm x nn | addImm x nn | rnd x nn =>
    simp [encode, decodeWord, fieldF_packXNN, fieldX_packXNN, nn.isLt, fieldNN_packXNN_byte]
  | seReg x y | sneReg x y => simp [encode, decodeWord, fieldF_packXYN, fieldX_packXYN, fieldY_packXYN, fieldN_packXYN]
  | ldReg x y | orReg x y | andReg x y | xorReg x y | addReg x y | sub x y | shr x y | subn x y | shl x y =>
    simp [encode, decodeWord, decodeFamily8, fieldF_packXYN, fieldX_packXYN, fieldY_packXYN, fieldN_packXYN]
  | drw x y n => simp [encode, decodeWord, fieldF_packXYN, fieldX_packXYN, fieldY_packXYN, fieldRows_packXYN]
  | skp x | sknp x => simp [encode, decodeWord, decodeFamilyE, fieldF_packXNN, fieldX_packXNN, fieldNN_packXNN]
  | ldVxDt x | ldVxK x | ldDtVx x | ldStVx x | addI x | ldF x | ldB x | storeRegs x | loadRegs x =>
    simp [encode, decodeWord, decodeFamilyF, fieldF_packXNN, fieldX_packXNN, fieldNN_packXNN]

/-- Settles O1: the two bytes make the instruction's word again, and the decoder undoes the encoder. -/
theorem decodeOfEncodedBytesReturnsInstruction : Obligations.DecodeOfEncodedBytesReturnsInstruction := by
  intro i rest h
  simp [encodeBytes, decode, wordOfBytes_hi_lo, decodeWord_encode h]

/-! ## A word is packed again from its fields -/

theorem fieldF_lt (w : Word) : fieldF w < 16 := Nat.mod_lt _ (by decide)

theorem fieldN_lt (w : Word) : fieldN w < 16 := Nat.mod_lt _ (by decide)

theorem packNNN_fields {w : Word} {f : Nat} (hF : fieldF w = f) : packNNN f (fieldNNN w) = w := by
  apply BitVec.eq_of_toNat_eq
  rw [← hF, packNNN_toNat (fieldF_lt w), fieldF_eq, fieldNNN_toNat]
  omega

theorem packXNN_fields {w : Word} {f nn : Nat} (hF : fieldF w = f) (hNN : (fieldNN w).toNat = nn) :
    packXNN f (fieldX w) nn = w := by
  apply BitVec.eq_of_toNat_eq
  rw [← hF, ← hNN, packXNN_toNat (fieldF_lt w) (fieldNN w).isLt, fieldF_eq, fieldX_val, fieldNN_toNat]
  omega

theorem packXYN_fields {w : Word} {f n : Nat} (hF : fieldF w = f) (hN : fieldN w = n) :
    packXYN f (fieldX w) (fieldY w) n = w := by
  apply BitVec.eq_of_toNat_eq
  rw [← hF, ← hN, packXYN_toNat (fieldF_lt w) (fieldN_lt w), fieldF_eq, fieldX_val, fieldY_val, fieldN_eq]
  omega

/-! ## What a decoded word is -/

/-- `i` is a well-formed instruction whose word is `w`. -/
def IsWordOf (w : Word) (i : Instr) : Prop := i.WellFormed ∧ encode i = w

theorem isWordOf_of_decodeFamily0 {w : Word} {i : Instr} (hF : fieldF w = 0x0) (h : decodeFamily0 w = .ok i) :
    IsWordOf w i := by
  have hw := packNNN_fields hF
  unfold decodeFamily0 at h
  split_ifs at h with hcls hret
  · cases h
    exact ⟨rfl, hcls.symm⟩
  · cases h
    exact ⟨rfl, hret.symm⟩
  · cases h
    have hE0 : fieldNNN w ≠ 0x0E0#12 := fun heq => hcls (hw.symm.trans (congrArg (packNNN 0x0) heq))
    have hEE : fieldNNN w ≠ 0x0EE#12 := fun heq => hret (hw.symm.trans (congrArg (packNNN 0x0) heq))
    exact ⟨(wellFormed_sys_iff _).mpr ⟨hE0, hEE⟩, hw⟩

theorem isWordOf_of_decodeFamily8 {w : Word} {i : Instr} (hF : fieldF w = 0x8) (h : decodeFamily8 w = .ok i) :
    IsWordOf w i := by
  unfold decodeFamily8 at h
  split at h <;> cases h
  all_goals exact ⟨rfl, packXYN_fields hF ‹_›⟩

theorem isWordOf_of_decodeFamilyE {w : Word} {i : Instr} (hF : fieldF w = 0xE) (h : decodeFamilyE w = .ok i) :
    IsWordOf w i := by
  unfold decodeFamilyE at h
  split at h <;> cases h
  all_goals exact ⟨rfl, packXNN_fields hF ‹_›⟩

theorem isWordOf_of_decodeFamilyF {w : Word} {i : Instr} (hF : fieldF w = 0xF) (h : decodeFamilyF w = .ok i) :
    IsWordOf w i := by
  unfold decodeFamilyF at h
  split at h <;> cases h
  all_goals exact ⟨rfl, packXNN_fields hF ‹_›⟩

/-- A word that decodes is the word of the well-formed instruction it decodes to, family by family. -/
theorem isWordOf_of_decodeWord {w : Word} {i : Instr} (h : decodeWord w = .ok i) : IsWordOf w i := by
  unfold decodeWord at h
  split at h
  case h_1 hF => exact isWordOf_of_decodeFamily0 hF h
  case h_2 hF | h_3 hF | h_11 hF | h_12 hF =>
    cases h
    exact ⟨rfl, packNNN_fields hF⟩
  case h_4 hF | h_5 hF | h_7 hF | h_8 hF | h_13 hF =>
    cases h
    exact ⟨rfl, packXNN_fields hF rfl⟩
  case h_6 hF | h_10 hF =>
    split at h <;> cases h
    next hN => exact ⟨rfl, packXYN_fields hF hN⟩
  case h_9 hF => exact isWordOf_of_decodeFamily8 hF h
  case h_14 hF =>
    cases h
    exact ⟨rfl, packXYN_fields hF ((fieldN_eq w).trans (fieldRows_val w).symm)⟩
  case h_15 hF => exact isWordOf_of_decodeFamilyE hF h
  case h_16 =>
    have hF : fieldF w = 0xF := by grind [fieldF_lt w]
    exact isWordOf_of_decodeFamilyF hF h

/-- Settles O2, by the inversion of the decoder. -/
theorem encodeOfDecodedWordReturnsWord : Obligations.EncodeOfDecodedWordReturnsWord :=
  fun _ _ h => isWordOf_of_decodeWord h

/-! ## The illegal words -/

/-- The words that 30_encoding.md R61 lists, by their fields. -/
def IllegalFields (w : Word) : Prop :=
  (fieldF w = 0x5 ∧ fieldN w ≠ 0) ∨
  (fieldF w = 0x8 ∧ fieldN w ∈ [0x8, 0x9, 0xA, 0xB, 0xC, 0xD, 0xF]) ∨
  (fieldF w = 0x9 ∧ fieldN w ≠ 0) ∨
  (fieldF w = 0xE ∧ (fieldNN w).toNat ∉ [0x9E, 0xA1]) ∨
  (fieldF w = 0xF ∧ (fieldNN w).toNat ∉ [0x07, 0x0A, 0x15, 0x18, 0x1E, 0x29, 0x33, 0x55, 0x65])

theorem decodeFamily0_ne_error (w : Word) (e : DecodeError) : decodeFamily0 w ≠ .error e := by
  unfold decodeFamily0
  split_ifs <;> nofun

theorem decodeFamily8_error_iff {w : Word} {e : DecodeError} :
    decodeFamily8 w = .error e ↔ e = .illegal w ∧ fieldN w ∈ [0x8, 0x9, 0xA, 0xB, 0xC, 0xD, 0xF] := by
  unfold decodeFamily8
  split
  case h_10 =>
    have hN : fieldN w ∈ [0x8, 0x9, 0xA, 0xB, 0xC, 0xD, 0xF] := by
      have hlt := fieldN_lt w
      simp only [imp_false, List.mem_cons, List.not_mem_nil, or_false] at *
      omega
    simp only [hN, and_true, Except.error.injEq, eq_comm]
  all_goals simp [*]

theorem decodeFamilyE_error_iff {w : Word} {e : DecodeError} :
    decodeFamilyE w = .error e ↔ e = .illegal w ∧ (fieldNN w).toNat ∉ [0x9E, 0xA1] := by
  unfold decodeFamilyE
  split
  case h_3 => simp_all [eq_comm (b := e)]
  all_goals simp [*]

theorem decodeFamilyF_error_iff {w : Word} {e : DecodeError} :
    decodeFamilyF w = .error e ↔
      e = .illegal w ∧ (fieldNN w).toNat ∉ [0x07, 0x0A, 0x15, 0x18, 0x1E, 0x29, 0x33, 0x55, 0x65] := by
  unfold decodeFamilyF
  split
  case h_10 => simp_all [eq_comm (b := e)]
  all_goals simp [*]

/-- The one error of the decoder is `illegal`, of the words that 30_encoding.md R61 lists. -/
theorem decodeWord_error_iff {w : Word} {e : DecodeError} :
    decodeWord w = .error e ↔ e = .illegal w ∧ IllegalFields w := by
  unfold decodeWord IllegalFields
  split
  case h_1 hF => simp [hF, decodeFamily0_ne_error]
  case h_6 hF | h_10 hF => split <;> simp [*, eq_comm (b := e)]
  case h_9 hF => simp [hF, decodeFamily8_error_iff]
  case h_15 hF => simp [hF, decodeFamilyE_error_iff]
  case h_16 =>
    have hF : fieldF w = 0xF := by grind [fieldF_lt w]
    simp [hF, decodeFamilyF_error_iff]
  all_goals simp [*]

/-- Settles O4: the families and sub-opcodes of R61 are the quotients and remainders of the word. -/
theorem illegalWordsAreExactlyThese : Obligations.IllegalWordsAreExactlyThese := by
  intro w
  rw [decodeWord_error_iff, IllegalFields, fieldF_eq, fieldN_eq, fieldNN_toNat]
  exact and_iff_right rfl

end Sys2Proof
end

section
/-! PROOFS. The decoder against spec/opcode_table.json and against words written out (30_encoding.md R59, R61). -/

namespace Sys2Proof

open Machine Laws

open EncodingMatchesTable in
/-- The instruction's word matches its own row of spec/opcode_table.json and none before it, whatever the
instruction. -/
theorem encodingMatchesTable : ∀ i, Statement i
  | .sys nnn => sys nnn
  | .cls => cls
  | .ret => ret
  | .jp nnn => jp nnn
  | .call nnn => call nnn
  | .seImm x nn => seImm x nn
  | .sneImm x nn => sneImm x nn
  | .seReg x y => seReg x y
  | .ldImm x nn => ldImm x nn
  | .addImm x nn => addImm x nn
  | .ldReg x y => ldReg x y
  | .orReg x y => orReg x y
  | .andReg x y => andReg x y
  | .xorReg x y => xorReg x y
  | .addReg x y => addReg x y
  | .sub x y => sub x y
  | .shr x y => shr x y
  | .subn x y => subn x y
  | .shl x y => shl x y
  | .sneReg x y => sneReg x y
  | .ldI nnn => ldI nnn
  | .jpV0 nnn => jpV0 nnn
  | .rnd x nn => rnd x nn
  | .drw x y n => drw x y n
  | .skp x => skp x
  | .sknp x => sknp x
  | .ldVxDt x => ldVxDt x
  | .ldVxK x => ldVxK x
  | .ldDtVx x => ldDtVx x
  | .ldStVx x => ldStVx x
  | .addI x => addI x
  | .ldF x => ldF x
  | .ldB x => ldB x
  | .storeRegs x => storeRegs x
  | .loadRegs x => loadRegs x

/-- A word that R61 lists matches no row of its family. -/
theorem tableName_of_illegalFields {w : Word} (h : IllegalFields w) : tableName w = none := by
  have hpos : 0 < fieldF w := by grind [IllegalFields]
  rw [tableName_of_fields rfl rfl rfl hpos]
  obtain ⟨hF, hN⟩ | ⟨hF, hN⟩ | ⟨hF, hN⟩ | ⟨hF, hNN⟩ | ⟨hF, hNN⟩ := h
  · simp [opcodeTable, hF, hN]
  · simp only [List.mem_cons, List.not_mem_nil, or_false] at hN
    obtain hN | hN | hN | hN | hN | hN | hN := hN <;> simp [opcodeTable, hF, hN]
  · simp [opcodeTable, hF, hN]
  all_goals
    simp only [List.mem_cons, List.not_mem_nil, or_false, not_or] at hNN
    simp [opcodeTable, hF, hNN]

/-- Settles O3: a word that decodes is its instruction's, which matches its own row; the others match none. -/
theorem decoderAgreesWithOpcodeTable : Obligations.DecoderAgreesWithOpcodeTable := by
  refine fun w => ⟨fun i h => ?_, fun e h => ?_⟩
  · obtain ⟨hwf, rfl⟩ := isWordOf_of_decodeWord h
    exact encodingMatchesTable i hwf
  · obtain ⟨he, hfields⟩ := decodeWord_error_iff.mp h
    exact ⟨he, tableName_of_illegalFields hfields⟩

/-- A well-formed instruction is encoded as its own word. -/
theorem encodedAs_encode {w : Nat} {i : Instr} (hwf : i.WellFormed) (hw : encode i = BitVec.ofNat 16 w) :
    EncodedAs w i := by rw [EncodedAs, ← hw, decodeWord_encode hwf]

/-- Settles O5: each written-out word is the encoder's, and the decoder undoes the encoder. -/
theorem writtenOutWordsDecode : Obligations.WrittenOutWordsDecode := by
  unfold Obligations.WrittenOutWordsDecode
  repeat' apply And.intro
  all_goals exact encodedAs_encode (by decide) (by decide)

end Sys2Proof
end

section
/-! PROOFS. The idle idiom, a jump to its own address (30_encoding.md R65, 40_pipeline.md R79). -/

namespace Sys2Proof.Machine

/-- With no fault recorded, a step that fetches a word that decodes is the instruction's meaning (40_pipeline.md R70 to
R73). -/
theorem step_of_decoded {s : State} {w : Word} {i : Instr} (hs : s.fault = none) (hw : fetch s = .ok w)
    (hi : decodeWord w = .ok i) : step s = exec i s := by
  simp only [step, hs, hw, decodeFetched, hi]

theorem State.goto_own_pc {s : State} (h : s.Canonical) : s.goto s.pc = s := by
  have hpc : finalPc s.config.pcContract s.pc = s.pc := State.goto_pc_canonical h s.pc
  rw [State.goto, hpc]

/-- A jump to the address it lies at leaves the state as it is (30_encoding.md R65). -/
theorem exec_jp_own_pc {s : State} {nnn : Addr12} (h : s.Canonical) (hpc : s.pc.toNat = nnn.toNat) :
    exec (.jp nnn) s = .next s := by
  have hzext : zextAddr nnn = s.pc := by
    apply BitVec.eq_of_toNat_eq
    rw [zextAddr, BitVec.toNat_setWidth_of_le (by decide), hpc]
  rw [exec, execJp, hzext, State.goto_own_pc h]

/-- A state that a step answers again is safe for any number of steps. -/
theorem safeFor_of_step_self {s : State} (hs : s.fault = none) (hstep : step s = .next s) (n : Nat) : SafeFor n s := by
  induction n with
  | zero => exact hs
  | succ n ih => exact ⟨hs, s, hstep, ih⟩

/-- Settles O42: the step is the jump, which leaves the state as it is. -/
theorem jumpToItselfIdlesForever : Obligations.JumpToItselfIdlesForever := by
  intro s nnn hs hcan hpc hfetch
  have hstep : step s = .next s :=
    (step_of_decoded hs hfetch (decodeWord_encode rfl)).trans (exec_jp_own_pc hcan hpc)
  exact ⟨hstep, safeFor_of_step_self hs hstep⟩

end Sys2Proof.Machine
end

section
/-! PROOFS. How an instruction ends (40_pipeline.md R74, R75): one lemma says, for each instruction, the final pc that
its rule computes and what of its outcome depends on the contract. -/

namespace Sys2Proof.Machine

/-! ## The contract as a part of the state -/

/-- The state with the contract replaced (00_scope.md R8). -/
def State.withContract (c : PcContract) (s : State) : State :=
  { s with config := { s.config with pcContract := c } }

theorem State.withContract_own (s : State) : s.withContract s.config.pcContract = s := rfl

theorem State.withContract_canonical {s : State} (h : s.Canonical) : s.withContract .canonical = s :=
  h ▸ s.withContract_own

@[simp] theorem State.withContract_pc (c : PcContract) (s : State) : (s.withContract c).pc = s.pc := rfl

@[simp] theorem State.withContract_sysPolicy (c : PcContract) (s : State) :
    (s.withContract c).config.sysPolicy = s.config.sysPolicy := rfl

theorem State.pop_withContract (c : PcContract) (s : State) :
    (s.withContract c).pop = s.pop.map fun r => (r.1, r.2.withContract c) := by
  rw [State.pop, State.pop, apply_dite (Except.map _)]
  rfl

theorem State.push_withContract (c : PcContract) (s : State) (w : Word) :
    (s.withContract c).push w = (s.push w).map (State.withContract c) := by
  rw [State.push, State.push, apply_dite (Except.map _)]
  rfl

/-! ## How an instruction ends -/

/-- The canonical final pcs that the rules of 40_pipeline.md R74 compute, the waiting `LD Vx, K` apart. -/
inductive PcTarget (s : State) : Word → Prop where
  | next : PcTarget s (s.pc + 2)
  | skip : PcTarget s (s.pc + 4)
  | jump (nnn : Addr12) : PcTarget s (zextAddr nnn)
  | indexed (nnn : Addr12) (b : Byte) : PcTarget s (zextAddr nnn + zextByte b)
  | popped (k : Fin 16) : PcTarget s (s.stack.get k)

theorem PcTarget.ofSkip (s : State) (cond : Bool) : PcTarget s (if cond then s.pc + 4 else s.pc + 2) := by
  cases cond
  · exact .next
  · exact .skip

/-- How an instruction ends in the state `s`, and what of it depends on the contract: it writes its parts and then the
final pc of a target, or it raises a cause, each under both contracts; or it is a wait with no key pressed
(40_pipeline.md R74, R75). -/
inductive Ending (i : Instr) (s : State) : Prop where
  | completes (u : State) (q : Word) (hfault : u.fault = s.fault) (hq : PcTarget s q)
      (hexec : ∀ c, exec i (s.withContract c) = .next ((u.withContract c).goto q))
  | raises (cause : FaultCause)
      (hexec : ∀ c, exec i (s.withContract c) = .next (raise cause (some (encode i)) (s.withContract c)))
  | waits (x : RegIdx) (hi : i = .ldVxK x) (hkey : s.anyKey = false)

/-- An access that may fault, followed by an update and the final pc. -/
theorem Ending.of_access {α : Type} {i : Instr} {s : State} (r : Except FaultCause α) (u : α → State)
    (q : α → Word) (hfault : ∀ a, r = .ok a → (u a).fault = s.fault) (hq : ∀ a, r = .ok a → PcTarget s (q a))
    (hexec : ∀ c, exec i (s.withContract c) =
      finish i (s.withContract c) (r.map fun a => ((u a).withContract c).goto (q a))) : Ending i s := by
  cases r with
  | ok a => exact .completes (u a) (q a) (hfault a rfl) (hq a rfl) hexec
  | error cause => exact .raises cause hexec

/-- A pure update, and the next instruction's address. -/
theorem advance_ending {i : Instr} {s : State} (u : State) (hfault : u.fault = s.fault) (hpc : u.pc = s.pc)
    (h : ∀ c, exec i (s.withContract c) = .next (u.withContract c).advance) : Ending i s :=
  .completes u (u.pc + 2) hfault (hpc ▸ .next) h

theorem writeResult_ending {i : Instr} {s : State} (x : RegIdx) (b : Byte)
    (h : ∀ c, exec i (s.withContract c) = writeResult x b (s.withContract c)) : Ending i s :=
  advance_ending (s.setReg x b) rfl rfl h

theorem writeResultAndFlag_ending {i : Instr} {s : State} (x : RegIdx) (b : Byte) (f : Bool)
    (h : ∀ c, exec i (s.withContract c) = writeResultAndFlag x b f (s.withContract c)) : Ending i s :=
  advance_ending ((s.setReg x b).setFlag f) rfl rfl h

theorem writeIndex_ending {i : Instr} {s : State} (w : Word)
    (h : ∀ c, exec i (s.withContract c) = writeIndex w (s.withContract c)) : Ending i s :=
  advance_ending { s with I := w } rfl rfl h

theorem skipIf_ending {i : Instr} {s : State} (cond : Bool)
    (h : ∀ c, exec i (s.withContract c) = .next ((s.withContract c).skipIf cond)) : Ending i s :=
  .completes s (if cond then s.pc + 4 else s.pc + 2) rfl (.ofSkip s cond) h

theorem sys_ending (nnn : Addr12) (s : State) : Ending (.sys nnn) s := by
  cases hp : s.config.sysPolicy with
  | fault =>
    refine .raises (.unspecifiedOperation (encode (.sys nnn))) fun c => ?_
    simp only [exec, execSys, State.withContract_sysPolicy, hp, finish]
  | noOp =>
    refine advance_ending s rfl rfl fun c => ?_
    simp only [exec, execSys, State.withContract_sysPolicy, hp, finish]

theorem ret_ending (s : State) : Ending .ret s := by
  refine .of_access s.pop Prod.snd Prod.fst ?_ ?_ fun c => ?_
  · rintro ⟨w, t⟩ h
    exact State.pop_frame h .fault nofun
  · rintro ⟨w, t⟩ h
    obtain ⟨k, u, -, hu, -⟩ | ⟨-, herr⟩ := s.pop_cases
    · obtain ⟨rfl, -⟩ := Prod.mk.inj (Except.ok.inj (hu.symm.trans h))
      exact .popped k
    · exact absurd (herr.symm.trans h) nofun
  · rw [exec, execRet_eq, State.pop_withContract]
    cases s.pop <;> rfl

theorem call_ending (nnn : Addr12) (s : State) : Ending (.call nnn) s := by
  refine .of_access (s.push (s.pc + 2)) id (fun _ => zextAddr nnn) (fun t h => ?_) (fun _ _ => .jump nnn) fun c => ?_
  · exact State.push_frame h .fault nofun
  · rw [exec, execCall_eq, State.withContract_pc, State.push_withContract]
    cases s.push (s.pc + 2) <;> rfl

theorem storeAtIndex_ending {i : Instr} {s : State} (bs : List Byte)
    (h : ∀ c, exec i (s.withContract c) = storeAtIndex i bs (s.withContract c)) : Ending i s :=
  .of_access (writeBlock s.mem s.I.toNat bs) (fun m => { s with mem := m }) (fun _ => s.pc + 2) (fun _ _ => rfl)
    (fun _ _ => .next) fun c => (h c).trans (storeAtIndex_eq i bs _)

theorem skipOnKey_ending {i : Instr} {s : State} (x : RegIdx) (level : Bool)
    (h : ∀ c, exec i (s.withContract c) = skipOnKey i x level (s.withContract c)) : Ending i s :=
  .of_access (s.keyOf (s.reg x)) (fun _ => s) (fun k => if k == level then s.pc + 4 else s.pc + 2) (fun _ _ => rfl)
    (fun _ _ => .ofSkip s _) fun c => (h c).trans (skipOnKey_eq i x level _)

theorem drw_ending (x y : RegIdx) (n : Fin 16) (s : State) : Ending (.drw x y n) s :=
  .of_access (readBlock s.mem s.I.toNat n.val) (drawRows x y s) (fun _ => s.pc + 2) (fun _ _ => rfl)
    (fun _ _ => .next) fun c => execDrw_eq x y n (s.withContract c)

theorem loadRegs_ending (x : RegIdx) (s : State) : Ending (.loadRegs x) s :=
  .of_access (readBlock s.mem s.I.toNat (x.val + 1)) s.loadRegsFrom (fun _ => s.pc + 2) (fun _ _ => rfl)
    (fun _ _ => .next) fun c => execLoadRegs_eq x (s.withContract c)

theorem ldVxK_ending (x : RegIdx) (s : State) : Ending (.ldVxK x) s := by
  cases hkey : s.anyKey with
  | false => exact .waits x rfl hkey
  | true =>
    refine advance_ending ({ s with draws := s.draws + 1 }.setReg x (Config.waitKeyDraw s.draws)) rfl rfl fun c => ?_
    exact if_pos hkey

/-- How each instruction ends. -/
theorem exec_ending (i : Instr) (s : State) : Ending i s := by
  cases i with
  | sys nnn => exact sys_ending nnn s
  | ret => exact ret_ending s
  | call nnn => exact call_ending nnn s
  | jp nnn => exact .completes s _ rfl (.jump nnn) fun _ => rfl
  | jpV0 nnn => exact .completes s _ rfl (.indexed nnn (s.reg 0)) fun _ => rfl
  | seImm x nn => exact skipIf_ending (s.reg x == nn) fun _ => rfl
  | sneImm x nn => exact skipIf_ending (s.reg x != nn) fun _ => rfl
  | seReg x y => exact skipIf_ending (s.reg x == s.reg y) fun _ => rfl
  | sneReg x y => exact skipIf_ending (s.reg x != s.reg y) fun _ => rfl
  | drw x y n => exact drw_ending x y n s
  | skp x => exact skipOnKey_ending x true fun _ => rfl
  | sknp x => exact skipOnKey_ending x false fun _ => rfl
  | ldVxK x => exact ldVxK_ending x s
  | ldB x => exact storeAtIndex_ending (decimalDigits (s.reg x)) fun _ => rfl
  | storeRegs x => exact storeAtIndex_ending (s.regsUpTo x) fun _ => rfl
  | loadRegs x => exact loadRegs_ending x s
  | cls => exact advance_ending { s with fb := Framebuffer.clear } rfl rfl fun _ => rfl
  | ldImm x nn => exact writeResult_ending x nn fun _ => rfl
  | addImm x nn => exact writeResult_ending x (s.reg x + nn) fun _ => rfl
  | ldReg x y => exact writeResult_ending x (s.reg y) fun _ => rfl
  | orReg x y => exact writeResult_ending x (s.reg x ||| s.reg y) fun _ => rfl
  | andReg x y => exact writeResult_ending x (s.reg x &&& s.reg y) fun _ => rfl
  | xorReg x y => exact writeResult_ending x (s.reg x ^^^ s.reg y) fun _ => rfl
  | addReg x y =>
    exact writeResultAndFlag_ending x (s.reg x + s.reg y) (carryFlag (s.reg x) (s.reg y)) fun _ => rfl
  | sub x y => exact writeResultAndFlag_ending x (s.reg x - s.reg y) (noBorrowFlag (s.reg x) (s.reg y)) fun _ => rfl
  | shr x y => exact writeResultAndFlag_ending x (s.reg x >>> 1) (shiftedOutRight (s.reg x)) fun _ => rfl
  | subn x y => exact writeResultAndFlag_ending x (s.reg y - s.reg x) (noBorrowFlag (s.reg y) (s.reg x)) fun _ => rfl
  | shl x y => exact writeResultAndFlag_ending x (s.reg x <<< 1) (shiftedOutLeft (s.reg x)) fun _ => rfl
  | rnd x nn =>
    exact advance_ending ({ s with draws := s.draws + 1 }.setReg x (Config.randDraw s.draws &&& nn)) rfl rfl
      fun _ => rfl
  | ldI nnn => exact writeIndex_ending (zextAddr nnn) fun _ => rfl
  | addI x => exact writeIndex_ending (s.I + zextByte (s.reg x)) fun _ => rfl
  | ldF x => exact writeIndex_ending (glyphAddress (s.reg x)) fun _ => rfl
  | ldVxDt x => exact advance_ending (s.setReg x s.dt) rfl rfl fun _ => rfl
  | ldDtVx x => exact advance_ending { s with dt := s.reg x } rfl rfl fun _ => rfl
  | ldStVx x => exact advance_ending { s with st := s.reg x } rfl rfl fun _ => rfl

/-! ## The wait with no key pressed (40_pipeline.md R75, 45_keys_timers.md R145) -/

theorem exec_wait_canonical {s : State} {x : RegIdx} (hkey : s.anyKey = false) (hc : s.Canonical) :
    exec (.ldVxK x) s = .next (s.goto s.pc) := by
  simp [exec, execLdVxK, hkey, hc]

theorem exec_wait_referenceDouble {s : State} {x : RegIdx} (hkey : s.anyKey = false)
    (hc : s.config.pcContract = .referenceDouble) : exec (.ldVxK x) s = .refused .waitKeyReferenceDouble := by
  simp [exec, execLdVxK, hkey, hc]

/-- Under the canonical contract every instruction answers a next state (40_pipeline.md R79). -/
theorem exec_next_of_canonical (i : Instr) {s : State} (hc : s.Canonical) : ∃ t, exec i s = .next t := by
  cases exec_ending i s with
  | completes u q _ _ hexec => exact ⟨_, hexec s.config.pcContract⟩
  | raises cause hexec => exact ⟨_, hexec s.config.pcContract⟩
  | waits x hi hkey => exact ⟨_, hi ▸ exec_wait_canonical hkey hc⟩

end Sys2Proof.Machine
end

section
/-! PROOFS. The pc and the return addresses stay within what the instructions can compute (40_pipeline.md R76,
41_control.md R86). -/

namespace Sys2Proof.Machine

/-! ## The configuration and the stack after an instruction -/

theorem not_mayWrite_config (i : Instr) (s : State) : ¬ MayWrite i s .config := by
  cases i <;> simp [MayWrite]

theorem exec_keeps_config {i : Instr} {s t : State} (h : exec i s = .next t) : t.config = s.config :=
  exec_same h (p := .config) nofun (not_mayWrite_config i s)

theorem call_of_mayWrite_stackCell {i : Instr} {s : State} {k : Fin 16} (h : MayWrite i s (.stackCell k)) :
    ∃ nnn, i = .call nnn := by
  cases i with
  | call nnn => exact ⟨nnn, rfl⟩
  | _ => simp [MayWrite] at h

theorem State.push_stackCell {s t : State} {w : Word} (h : s.push w = .ok t) (k : Fin 16) :
    t.stack.get k = s.stack.get k ∨ t.stack.get k = w := by
  obtain ⟨-, u, hu, -, hstack, -⟩ | ⟨-, herr⟩ := s.push_cases w
  · obtain rfl := Except.ok.inj (hu.symm.trans h)
    rw [hstack]
    exact (ite_eq_or_eq _ _ _).symm
  · exact absurd (herr.symm.trans h) nofun

theorem call_stackCell {nnn : Addr12} {s t : State} (h : exec (.call nnn) s = .next t) (k : Fin 16) :
    t.stack.get k = s.stack.get k ∨ t.stack.get k = s.pc + 2 := by
  have hcall : finish (.call nnn) s _ = .next t := (execCall_eq nnn s).symm.trans h
  cases hpush : s.push (s.pc + 2) with
  | ok u =>
    rw [hpush] at hcall
    obtain rfl := Host.Outcome.next.inj hcall
    exact State.push_stackCell hpush k
  | error c =>
    rw [hpush] at hcall
    obtain rfl := Host.Outcome.next.inj hcall
    exact .inl rfl

/-- A stack cell after an instruction is the one before, or the return address of this instruction
(41_control.md R88). -/
theorem exec_stackCell {i : Instr} {s t : State} (h : exec i s = .next t) (k : Fin 16) :
    t.stack.get k = s.stack.get k ∨ t.stack.get k = s.pc + 2 := by
  by_cases hw : MayWrite i s (.stackCell k)
  · obtain ⟨nnn, rfl⟩ := call_of_mayWrite_stackCell hw
    exact call_stackCell h k
  · exact .inl (exec_same h (p := .stackCell k) nofun hw)

/-! ## Bounds of the addresses (40_pipeline.md R76) -/

theorem zextAddr_toNat (nnn : Addr12) : (zextAddr nnn).toNat = nnn.toNat :=
  BitVec.toNat_setWidth_of_le (by decide)

theorem zextByte_toNat (b : Byte) : (zextByte b).toNat = b.toNat :=
  BitVec.toNat_setWidth_of_le (by decide)

/-- The targets of an instruction fetched inside the memory, the stack cells being bounded. -/
theorem PcTarget.toNat_le {s : State} {q : Word} (h : PcTarget s q) (hpc : s.pc.toNat + 1 < 4096)
    (hstack : ∀ k, (s.stack.get k).toNat ≤ 0x1000) : q.toNat ≤ 0x10FE := by
  cases h with
  | next => bv_omega
  | skip => bv_omega
  | jump nnn =>
    have := nnn.isLt
    rw [zextAddr_toNat]
    omega
  | indexed nnn b =>
    have := nnn.isLt
    have := b.isLt
    rw [BitVec.toNat_add, zextAddr_toNat, zextByte_toNat]
    omega
  | popped k => exact (hstack k).trans (by decide)

theorem finalPc_toNat_le (c : PcContract) {q : Word} (h : q.toNat ≤ 0x10FE) : (finalPc c q).toNat ≤ pcBound c := by
  cases c with
  | canonical => exact h
  | referenceDouble =>
    simp only [finalPc, pcBound]
    bv_omega

/-- An instruction's final pc is within the contract's bound. -/
theorem exec_pc_toNat_le {i : Instr} {s t : State} (h : exec i s = .next t) (hpc : s.pc.toNat + 1 < 4096)
    (hs : AddressesBounded s) : t.pc.toNat ≤ pcBound s.config.pcContract := by
  obtain ⟨hbound, hstack⟩ := hs
  cases exec_ending i s with
  | completes u q _ hq hexec =>
    obtain rfl := Host.Outcome.next.inj (h.symm.trans (hexec s.config.pcContract))
    exact finalPc_toNat_le _ (hq.toNat_le hpc hstack)
  | raises cause hexec =>
    obtain rfl := Host.Outcome.next.inj (h.symm.trans (hexec s.config.pcContract))
    exact hbound
  | waits x hi hkey =>
    subst hi
    cases hc : s.config.pcContract with
    | canonical =>
      obtain rfl := Host.Outcome.next.inj (h.symm.trans (exec_wait_canonical hkey hc))
      rw [State.goto_own_pc hc, ← hc]
      exact hbound
    | referenceDouble => exact absurd (h.symm.trans (exec_wait_referenceDouble hkey hc)) nofun

/-- An instruction fetched inside the memory keeps the addresses bounded. -/
theorem exec_keeps_addressesBounded {i : Instr} {s t : State} (h : exec i s = .next t)
    (hpc : s.pc.toNat + 1 < 4096) (hs : AddressesBounded s) : AddressesBounded t := by
  refine ⟨exec_keeps_config h ▸ exec_pc_toNat_le h hpc hs, fun k => ?_⟩
  obtain ⟨-, hstack⟩ := hs
  obtain hkept | hpushed := exec_stackCell h k
  · exact hkept ▸ hstack k
  · rw [hpushed]
    bv_omega

/-- Settles O47: a step records a fault, which leaves the addresses, or runs an instruction fetched inside the
memory. -/
theorem stepKeepsAddressesBounded : Obligations.StepKeepsAddressesBounded := by
  intro s t hs h
  obtain ⟨-, ⟨c, -, rfl⟩ | ⟨w, e, -, -, rfl⟩ | ⟨w, i, hw, -, hexec⟩⟩ := step_next h
  · exact hs
  · exact hs
  · exact exec_keeps_addressesBounded hexec (fetch_inv hw).1 hs

end Sys2Proof.Machine
end

section
/-! PROOFS. What the step of a running machine answers (40_pipeline.md R70 to R73, R79; 60_exceptions.md R151, R153,
R156). -/

namespace Sys2Proof.Machine

theorem step_of_fetch_error {s : State} {c : FaultCause} (hs : s.fault = none) (hw : fetch s = .error c) :
    step s = .next (raise c none s) := by
  simp only [step, hs, hw]

theorem step_of_decode_error {s : State} {w : Word} {e : DecodeError} (hs : s.fault = none) (hw : fetch s = .ok w)
    (hd : decodeWord w = .error e) : step s = .next (raise (.illegalInstruction w) (some w) s) := by
  simp only [step, hs, hw, decodeFetched, hd]

/-- A fetch outside the memory reports the lowest of its two addresses that lies outside (40_pipeline.md R71). -/
theorem fetch_outside {s : State} (h : memSize ≤ s.pc.toNat + 1) :
    fetch s = .error (.memoryBounds (max memSize s.pc.toNat)) := by
  by_cases hpc : s.pc.toNat < memSize
  · have hlast : s.pc.toNat + 1 = memSize := by omega
    simp [fetch, memRead, hpc, hlast, hpc.le]
  · simp [fetch, memRead, hpc, Nat.le_of_not_lt hpc]

theorem decodeWord_of_decode {hi lo : Byte} {i : Instr} (h : decode [hi, lo] = .ok (i, [])) :
    decodeWord (wordOfBytes hi lo) = .ok i := by
  unfold decode at h
  cases hd : decodeWord (wordOfBytes hi lo) with
  | ok j =>
    simp only [hd] at h
    rw [(Prod.mk.inj (Except.ok.inj h)).1]
  | error e =>
    simp only [hd] at h
    cases h

/-- Settles O35: the fetch fault of the lowest address, and what `raise` records. -/
theorem fetchOutsideMemoryIsRecorded : Obligations.FetchOutsideMemoryIsRecorded := by
  intro s hs hout
  refine ⟨_, _, step_of_fetch_error hs (fetch_outside hout), raise_frame _ _ s, rfl, rfl, rfl, rfl,
    fun hlast => ?_, fun hpc => ?_⟩
  · exact congrArg FaultInfo.address (max_eq_left (hlast.le.trans (by decide)))
  · exact congrArg FaultInfo.address (max_eq_right hpc)

/-- Settles O36: the decode fault, and what `raise` records. -/
theorem illegalWordIsRecorded : Obligations.IllegalWordIsRecorded := by
  intro s w hs hw hd
  exact ⟨_, _, step_of_decode_error hs hw hd, raise_frame _ _ s, rfl, rfl, rfl, rfl, rfl⟩

/-- Settles O40: the fetch and the decoding fail into a next state, and so does every instruction. -/
theorem runningMachineAlwaysSteps : Obligations.RunningMachineAlwaysSteps := by
  intro s hs hc
  cases hw : fetch s with
  | error c => exact ⟨_, step_of_fetch_error hs hw⟩
  | ok w =>
    cases hd : decodeWord w with
    | error e => exact ⟨_, step_of_decode_error hs hw hd⟩
    | ok i => exact step_of_decoded hs hw hd ▸ exec_next_of_canonical i hc

/-- Settles O34: the two bytes at the pc are the fetched word. -/
theorem stepRunsDecodedInstruction : Obligations.StepRunsDecodedInstruction :=
  fun _ _ hs hpc hdec => step_of_decoded hs (fetch_ok hpc) (decodeWord_of_decode hdec)

end Sys2Proof.Machine
end

section
/-! PROOFS. The ReferenceDouble contract against the Canonical one (40_pipeline.md R75). -/

namespace Sys2Proof.Machine

theorem exec_referenceDouble_of_faulted {i : Instr} {s t : State} {r : FaultRecord} (hc : s.Canonical)
    (hs : s.fault = none) (h : exec i s = .next t) (ht : t.fault = some r) :
    exec i (s.withContract .referenceDouble) = .next (t.withContract .referenceDouble) := by
  cases exec_ending i s with
  | completes u q hfault _ hexec =>
    obtain rfl := Host.Outcome.next.inj (h.symm.trans (hexec s.config.pcContract))
    exact absurd ((hfault.trans hs).symm.trans ht) nofun
  | raises cause hexec =>
    obtain rfl := Host.Outcome.next.inj (h.symm.trans (hexec s.config.pcContract))
    exact hexec .referenceDouble
  | waits x hi hkey =>
    subst hi
    obtain rfl := Host.Outcome.next.inj (h.symm.trans (exec_wait_canonical hkey hc))
    exact absurd (hs.symm.trans ht) nofun

theorem exec_referenceDouble_of_completed {i : Instr} {s t : State} (hc : s.Canonical) (h : exec i s = .next t)
    (ht : t.fault = none) (hrun : s.anyKey = true ∨ ∀ x, i ≠ .ldVxK x) :
    exec i (s.withContract .referenceDouble) =
      .next { t.withContract .referenceDouble with pc := t.pc + 2 } := by
  cases exec_ending i s with
  | completes u q _ _ hexec =>
    rw [← State.withContract_canonical hc] at h
    obtain rfl := Host.Outcome.next.inj (h.symm.trans (hexec .canonical))
    exact hexec .referenceDouble
  | raises cause hexec =>
    obtain rfl := Host.Outcome.next.inj (h.symm.trans (hexec s.config.pcContract))
    exact absurd ht nofun
  | waits x hi hkey =>
    obtain hpressed | hne := hrun
    · exact absurd (hkey.symm.trans hpressed) nofun
    · exact absurd hi (hne x)

/-- Settles O41: how the instruction ends under both contracts, and the configuration it keeps. -/
theorem referenceDoubleAddsTwo : Obligations.ReferenceDoubleAddsTwo := by
  intro i s t hc hs h
  have hconfig : t.config = s.config := exec_keeps_config h
  refine ⟨fun r hr => (exec_referenceDouble_of_faulted hc hs h hr).trans ?_, fun ht hrun => ?_, ?_⟩
  · rw [← hconfig]
    rfl
  · refine (exec_referenceDouble_of_completed hc h ht (hrun.imp_left s.anyKey_iff.mpr)).trans ?_
    rw [← hconfig]
    rfl
  · rintro x rfl hkey
    exact exec_wait_referenceDouble (s.anyKey_eq_false_iff.mpr hkey) rfl

end Sys2Proof.Machine
end

section
/-! PROOFS. Control transfer (41_control.md R85 to R93). A meaning that only sets the program counter has one rule, which
the jumps, the skips and the `SYS` that advances share; `RET` and `CALL` are one stack access and then a jump. -/

namespace Sys2Proof.Machine

/-! ## Outcomes by rule -/

theorem CompletesWith.imp {i : Instr} {s : State} {written : Part → Prop} {post post' : State → Prop}
    (h : CompletesWith i s written post) (himp : ∀ t, post t → post' t) : CompletesWith i s written post' := by
  obtain ⟨t, hexec, hpost, hframe⟩ := h
  exact ⟨t, hexec, himp t hpost, hframe⟩

/-- A meaning that only sets the program counter (40_pipeline.md R74). -/
theorem goto_spec {i : Instr} {s : State} {q : Word} (h : exec i s = .next (s.goto q)) (hc : s.Canonical) :
    CompletesWith i s (· = .pc) (fun t => t.pc = q) :=
  ⟨_, h, State.goto_pc_canonical hc q, s.goto_frame q⟩

/-- A meaning that only skips (41_control.md R89 to R92): `P` says when its condition holds, `Q` when it fails. -/
theorem skipIf_spec {i : Instr} {s : State} {cond : Bool} {P Q : Prop} (h : exec i s = .next (s.skipIf cond))
    (hc : s.Canonical) (hP : cond = true ↔ P) (hQ : cond = false ↔ Q) :
    CompletesWith i s (· = .pc) (fun t => (P → t.pc = s.pc + 4) ∧ (Q → t.pc = s.pc + 2)) := by
  refine (goto_spec h hc).imp fun t ht => ⟨fun hp => ?_, fun hq => ?_⟩
  · rw [ht, if_pos (hP.mpr hp)]
  · rw [ht, hQ.mpr hq, if_neg Bool.false_ne_true]

theorem exec_of_access_ok {α : Type} {i : Instr} {s : State} {r : Except FaultCause α} {f : α → State} {a : α}
    (h : exec i s = finish i s (r.map f)) (hr : r = .ok a) : exec i s = .next (f a) := by
  rw [h, hr]
  rfl

theorem raises_of_access_error {α : Type} {i : Instr} {s : State} {r : Except FaultCause α} {f : α → State}
    {c : FaultCause} (h : exec i s = finish i s (r.map f)) (hr : r = .error c) : Raises i s c :=
  raises_of_exec (by rw [h, hr]; rfl)

/-! ## Jumps and skips -/

/-- The target of `JP V0, NNN` is the whole sum, which fits a word (41_control.md R93). -/
theorem toNat_zextAddr_add_zextByte (nnn : Addr12) (b : Byte) :
    (zextAddr nnn + zextByte b).toNat = nnn.toNat + b.toNat := by
  have := nnn.isLt
  have := b.isLt
  rw [BitVec.toNat_add_of_lt (by rw [zextAddr_toNat, zextByte_toNat]; omega), zextAddr_toNat, zextByte_toNat]

/-- Settles O8: the target is the address field, extended by zeros. -/
theorem jumpSetsProgramCounter : Obligations.JumpSetsProgramCounter := by
  intro nnn s hc
  refine ⟨encodedAs_encode rfl rfl, (goto_spec rfl hc).imp fun t ht => ?_⟩
  rw [ht, zextAddr_toNat]

/-- Settles O11: the target is the sum of the two fields, extended by zeros. -/
theorem jumpOffsetAddsRegisterZero : Obligations.JumpOffsetAddsRegisterZero := by
  intro nnn s hc
  refine ⟨encodedAs_encode rfl rfl, (goto_spec rfl hc).imp fun t ht => ?_⟩
  rw [ht, toNat_zextAddr_add_zextByte]

/-- Settles O10: each skip is the shared one, on its own comparison. -/
theorem registerSkipsFollowComparison : Obligations.RegisterSkipsFollowComparison := by
  intro x y nn s hc
  refine ⟨encodedAs_encode rfl rfl, encodedAs_encode rfl rfl, encodedAs_encode rfl rfl, encodedAs_encode rfl rfl,
    ?_, ?_, ?_, ?_⟩
  · exact skipIf_spec rfl hc beq_iff_eq beq_eq_false_iff_ne
  · exact skipIf_spec rfl hc bne_iff_ne bne_eq_false_iff_eq
  · exact skipIf_spec rfl hc beq_iff_eq beq_eq_false_iff_ne
  · exact skipIf_spec rfl hc bne_iff_ne bne_eq_false_iff_eq

/-! ## `SYS` -/

theorem encode_sys (nnn : Addr12) : encode (.sys nnn) = BitVec.ofNat 16 nnn.toNat := by
  rw [encode, packNNN, Nat.zero_mul, Nat.zero_add]

theorem exec_sys_of_fault {nnn : Addr12} {s : State} (h : s.config.sysPolicy = .fault) :
    exec (.sys nnn) s = .next (raise (.unspecifiedOperation (encode (.sys nnn))) (some (encode (.sys nnn))) s) := by
  simp only [exec, execSys, h, finish]

theorem exec_sys_of_noOp {nnn : Addr12} {s : State} (h : s.config.sysPolicy = .noOp) :
    exec (.sys nnn) s = .next s.advance := by
  simp only [exec, execSys, h, finish]

/-- Settles O6: each policy is one branch, and the operands that are left out are the words of `CLS` and `RET`. -/
theorem sysFollowsPolicy : Obligations.SysFollowsPolicy := by
  intro nnn s hcls hret
  refine ⟨encodedAs_encode ((wellFormed_sys_iff nnn).mpr ⟨hcls, hret⟩) (encode_sys nnn), fun hfault => ?_,
    fun hnoOp hc => ?_⟩
  · rw [← encode_sys]
    exact raises_of_exec (exec_sys_of_fault hfault)
  · exact goto_spec (exec_sys_of_noOp hnoOp) hc

/-! ## `RET` and `CALL` -/

/-- A frame that keeps the configuration keeps the contract. -/
theorem OnlyChanges.canonical {written : Part → Prop} {s t : State} (h : OnlyChanges written s t)
    (hw : ¬ written .config) (hc : s.Canonical) : t.Canonical :=
  (congrArg Config.pcContract (h .config hw)).trans hc

/-- Settles O7: the pop answers the cell below the stack pointer, or the fault of an empty stack. -/
theorem returnPopsProgramCounter : Obligations.ReturnPopsProgramCounter := by
  intro s
  refine ⟨encodedAs_encode rfl rfl, fun hempty => ?_, fun k hk hc => ?_⟩
  · obtain ⟨k, -, hk, -⟩ | ⟨-, herr⟩ := s.pop_cases
    · omega
    · exact raises_of_access_error (execRet_eq s) herr
  · obtain ⟨j, t, hj, hpop, hsp, -⟩ | ⟨hempty, -⟩ := s.pop_cases
    · obtain rfl : k = j := Fin.ext (by omega)
      have hframe := State.pop_frame hpop
      have hcan : t.Canonical := hframe.canonical nofun hc
      exact ⟨_, exec_of_access_ok (execRet_eq s) hpop, ⟨hsp, State.goto_pc_canonical hcan _⟩, hframe.goto _⟩
    · omega

/-- Settles O9: the push writes the cell at the stack pointer, or answers the fault of a full stack. -/
theorem callPushesReturnAddress : Obligations.CallPushesReturnAddress := by
  intro nnn s
  refine ⟨encodedAs_encode rfl rfl, fun hfull => ?_, fun k hk hc => ?_⟩
  · obtain ⟨hlt, -⟩ | ⟨-, herr⟩ := s.push_cases (s.pc + 2)
    · omega
    · exact raises_of_access_error (execCall_eq nnn s) herr
  · obtain ⟨-, t, hpush, hsp, hstack, -⟩ | ⟨hfull, -⟩ := s.push_cases (s.pc + 2)
    · have hframe := State.push_frame hpush
      have hcan : t.Canonical := hframe.canonical nofun hc
      refine ⟨_, exec_of_access_ok (execCall_eq nnn s) hpush,
        ⟨(hstack k).trans (if_pos hk.symm), hsp.trans (congrArg (· + 1) hk), ?_⟩, (hframe.goto _).mono fun p hp => ?_⟩
      · rw [State.goto_pc_canonical hcan, zextAddr_toNat]
      · obtain rfl | rfl | ⟨j, hcell, hj⟩ := hp
        · exact .inl rfl
        · exact .inr (.inl rfl)
        · obtain rfl : j = k := Fin.ext (hj.trans hk)
          exact .inr (.inr hcell)
    · omega

end Sys2Proof.Machine
end

section
/-! PROOFS. The 8-bit ALU and the random draw (42_alu.md). Each operation is one of the shared meanings `writeResult` and
`writeResultAndFlag`, so what is left to say is what its result and its flag are on numbers or on bits. -/

namespace Sys2Proof.Machine

/-! ## Words of family 8 -/

theorem encodedAs_of_family8 {i : Instr} {x y : RegIdx} (n : Nat) (hwf : i.WellFormed)
    (h : encode i = packXYN 0x8 x y n) : EncodedAs (0x8000 + n + x.val * 256 + y.val * 16) i :=
  encodedAs_encode hwf (h.trans (congrArg (BitVec.ofNat 16) (by omega)))

/-! ## Flags on numbers -/

theorem flagByte_eq_zero_or_one (f : Bool) : flagByte f = 0 ∨ flagByte f = 1 := by
  cases f
  · exact .inl rfl
  · exact .inr rfl

theorem flagByte_decide (p : Prop) [Decidable p] : flagByte (decide p) = if p then 1 else 0 := by
  simp only [flagByte, decide_eq_true_eq]

theorem flagByte_toNat (f : Bool) : (flagByte f).toNat = f.toNat := by cases f <;> rfl

/-- The bit that a right shift moves out is the remainder (42_alu.md R109). -/
theorem flagByte_shiftedOutRight_toNat (a : Byte) : (flagByte (shiftedOutRight a)).toNat = a.toNat % 2 := by
  rw [flagByte_toNat, shiftedOutRight, BitVec.getLsbD, Nat.toNat_testBit, Nat.pow_zero, Nat.div_one]

/-- The bit that a left shift moves out is the top one (42_alu.md R111). -/
theorem flagByte_shiftedOutLeft_toNat (a : Byte) : (flagByte (shiftedOutLeft a)).toNat = a.toNat / 128 := by
  have := a.isLt
  rw [flagByte_toNat, shiftedOutLeft, BitVec.getLsbD, Nat.toNat_testBit]
  omega

/-! ## Results on numbers -/

theorem byte_sub_toNat (a b : Byte) : (a - b).toNat = (a.toNat + 256 - b.toNat) % 256 := by
  have := b.isLt
  rw [BitVec.toNat_sub]
  omega

theorem byte_shiftRight_one_toNat (a : Byte) : (a >>> 1).toNat = a.toNat / 2 := by
  rw [BitVec.toNat_ushiftRight, Nat.shiftRight_eq_div_pow, Nat.pow_one]

theorem byte_shiftLeft_one_toNat (a : Byte) : (a <<< 1).toNat = a.toNat * 2 % 256 := by
  rw [BitVec.toNat_shiftLeft, Nat.shiftLeft_eq, Nat.pow_one]

/-- A right shift and then a left shift clear bit 0 (42_alu.md R113). -/
theorem byte_shiftRight_shiftLeft_one (a : Byte) : a >>> 1 <<< 1 = a &&& 0xFE :=
  BitVec.shiftLeft_ushiftRight

/-! ## Operations without a flag -/

/-- Settles O12: each of the three is a shared write of one result. -/
theorem immediateAndCopyFormsWriteDestination : Obligations.ImmediateAndCopyFormsWriteDestination := by
  intro x y nn s hc
  refine ⟨encodedAs_encode rfl rfl, encodedAs_encode rfl rfl, encodedAs_of_family8 0x0 rfl rfl,
    writeResult_spec x nn rfl hc, ?_, writeResult_spec x (s.reg y) rfl hc⟩
  refine (writeResult_spec x (s.reg x + nn) rfl hc).imp fun t ⟨hx, hpc⟩ => ⟨?_, hpc⟩
  rw [hx, BitVec.toNat_add]

/-- Settles O13: each of the three writes one result, whose bits the library's lemma on the operator gives. -/
theorem logicalOperationsActBitwise : Obligations.LogicalOperationsActBitwise := by
  intro x y s hc
  refine ⟨encodedAs_of_family8 0x1 rfl rfl, encodedAs_of_family8 0x2 rfl rfl, encodedAs_of_family8 0x3 rfl rfl, ?_, ?_, ?_⟩
  · refine (writeResult_spec x (s.reg x ||| s.reg y) rfl hc).imp fun t ⟨hx, hpc⟩ => ⟨fun b => ?_, hpc⟩
    rw [hx, BitVec.getLsbD_or]
  · refine (writeResult_spec x (s.reg x &&& s.reg y) rfl hc).imp fun t ⟨hx, hpc⟩ => ⟨fun b => ?_, hpc⟩
    rw [hx, BitVec.getLsbD_and]
  · refine (writeResult_spec x (s.reg x ^^^ s.reg y) rfl hc).imp fun t ⟨hx, hpc⟩ => ⟨fun b => ?_, hpc⟩
    rw [hx, BitVec.getLsbD_xor]

/-- Settles O17: the draw is taken before the write, so the frame is the one of a draw into a register. -/
theorem randomIsFreeDrawMasked : Obligations.RandomIsFreeDrawMasked := by
  intro x nn s hc
  refine ⟨encodedAs_encode rfl rfl, _, rfl, ⟨fun b => ?_, rfl, State.goto_pc_canonical hc _⟩, drawToReg_frame s x _⟩
  rw [State.reg_advance, State.reg_setReg_same, BitVec.getLsbD_and]

/-! ## Operations with a flag -/

/-- A meaning that writes a result and then the flag, on numbers: `result` is what `Vx` receives, `flag` what `VF`
receives (42_alu.md R107 to R111). -/
theorem resultAndFlag_spec {i : Instr} {s : State} {x : RegIdx} {b : Byte} {f : Bool} {result : Nat} {flag : Byte}
    (h : exec i s = writeResultAndFlag x b f s) (hc : s.Canonical) (hb : b.toNat = result) (hf : flagByte f = flag) :
    CompletesWith i s (fun p => p = .pc ∨ p = .reg x ∨ p = .reg 0xF)
      (fun t => (x ≠ 0xF → (t.reg x).toNat = result) ∧ t.reg 0xF = flag ∧ t.pc = s.pc + 2) :=
  (writeResultAndFlag_spec x b f h hc).imp fun _ ⟨hx, hvf, hpc⟩ =>
    ⟨fun hne => (congrArg BitVec.toNat (hx hne)).trans hb, hvf.trans hf, hpc⟩

/-- Settles O14: the sum of two bytes, and its carry as the shared flag. -/
theorem addRegistersWritesSumAndCarry : Obligations.AddRegistersWritesSumAndCarry := by
  intro x y s hc
  exact ⟨encodedAs_of_family8 0x4 rfl rfl, resultAndFlag_spec rfl hc (BitVec.toNat_add _ _) (flagByte_decide _)⟩

/-- Settles O15: both subtractions are one difference of bytes, with the operands exchanged. -/
theorem subtractionsWriteDifferenceAndNotBorrow : Obligations.SubtractionsWriteDifferenceAndNotBorrow := by
  intro x y s hc
  refine ⟨encodedAs_of_family8 0x5 rfl rfl, encodedAs_of_family8 0x7 rfl rfl, ?_, ?_⟩
  · exact resultAndFlag_spec rfl hc (byte_sub_toNat (s.reg x) (s.reg y)) (flagByte_decide _)
  · exact resultAndFlag_spec rfl hc (byte_sub_toNat (s.reg y) (s.reg x)) (flagByte_decide _)

/-- Settles O16: the shifts halve and double, and the bit shifted out is the remainder or the top bit. -/
theorem shiftsWriteShiftedOutBit : Obligations.ShiftsWriteShiftedOutBit := by
  intro x y s hc
  refine ⟨encodedAs_of_family8 0x6 rfl rfl, encodedAs_of_family8 0xE rfl rfl, ?_, ?_⟩
  · refine (resultAndFlag_spec rfl hc (byte_shiftRight_one_toNat (s.reg x)) rfl).imp fun t ⟨hx, hvf, hpc⟩ =>
      ⟨hx, ?_, hpc⟩
    rw [hvf, flagByte_shiftedOutRight_toNat]
  · refine (resultAndFlag_spec rfl hc (byte_shiftLeft_one_toNat (s.reg x)) rfl).imp fun t ⟨hx, hvf, hpc⟩ =>
      ⟨hx, ?_, hpc⟩
    rw [hvf, flagByte_shiftedOutLeft_toNat]

/-! ## Laws (42_alu.md R113) -/

/-- The registers after a meaning that writes a result and then the flag, under either contract. -/
theorem exec_registers_of_resultAndFlag {i : Instr} {s : State} {x : RegIdx} {b : Byte} {f : Bool}
    (h : exec i s = writeResultAndFlag x b f s) :
    ∃ t, exec i s = .next t ∧ (x ≠ 0xF → t.reg x = b) ∧ t.reg 0xF = flagByte f ∧
      ∀ r, r ≠ x → r ≠ 0xF → t.reg r = s.reg r := by
  refine ⟨_, h, fun hx => ?_, ?_, fun r hr hrF => ?_⟩
  · rw [State.reg_advance, State.reg_setFlag, if_neg hx, State.reg_setReg_same]
  · rw [State.reg_advance, State.reg_setFlag, if_pos rfl]
  · rw [State.reg_advance, State.reg_setFlag, if_neg hrF, State.reg_setReg_other s b hr]

theorem addReg_sub_restores {x y : RegIdx} (s : State) (hxy : x ≠ y) (hx : x ≠ 0xF) (hy : y ≠ 0xF) :
    ∃ t u, exec (.addReg x y) s = .next t ∧ exec (.sub x y) t = .next u ∧ u.reg x = s.reg x := by
  obtain ⟨t, ht, htx, -, hother⟩ := exec_registers_of_resultAndFlag (i := .addReg x y) (s := s) rfl
  obtain ⟨u, hu, hux, -, -⟩ := exec_registers_of_resultAndFlag (i := .sub x y) (s := t) rfl
  refine ⟨t, u, ht, hu, ?_⟩
  calc u.reg x = t.reg x - t.reg y := hux hx
    _ = s.reg x + s.reg y - s.reg y := by rw [htx hx, hother y hxy.symm hy]
    _ = s.reg x := BitVec.add_sub_cancel _ _

theorem shr_shl_clears_bit0 {x : RegIdx} (y z : RegIdx) (s : State) (hx : x ≠ 0xF) :
    ∃ t u, exec (.shr x y) s = .next t ∧ exec (.shl x z) t = .next u ∧ u.reg x = s.reg x &&& 0xFE := by
  obtain ⟨t, ht, htx, -, -⟩ := exec_registers_of_resultAndFlag (i := .shr x y) (s := s) rfl
  obtain ⟨u, hu, hux, -, -⟩ := exec_registers_of_resultAndFlag (i := .shl x z) (s := t) rfl
  refine ⟨t, u, ht, hu, ?_⟩
  calc u.reg x = t.reg x <<< 1 := hux hx
    _ = s.reg x >>> 1 <<< 1 := by rw [htx hx]
    _ = s.reg x &&& 0xFE := byte_shiftRight_shiftLeft_one _

/-- The five operations that write `VF` as a flag share one meaning. -/
theorem exec_flagWriter {x y : RegIdx} {i : Instr} (s : State)
    (hi : i ∈ [.addReg x y, .sub x y, .shr x y, .subn x y, .shl x y]) :
    ∃ b f, exec i s = writeResultAndFlag x b f s := by
  simp only [List.mem_cons, List.not_mem_nil, or_false] at hi
  obtain rfl | rfl | rfl | rfl | rfl := hi <;> exact ⟨_, _, rfl⟩

/-- Settles O18: the two laws on registers, and the flag byte of the shared meaning. -/
theorem aluLawsHold : Obligations.AluLawsHold := by
  refine ⟨fun _ _ s hxy hx hy => addReg_sub_restores s hxy hx hy, fun _ y z s hx => shr_shl_clears_bit0 y z s hx,
    fun x y s i hi => ?_⟩
  obtain ⟨b, f, hexec⟩ := exec_flagWriter s hi
  obtain ⟨t, ht, -, hvf, -⟩ := exec_registers_of_resultAndFlag hexec
  refine ⟨t, ht, ?_⟩
  rw [hvf]
  exact flagByte_eq_zero_or_one f

end Sys2Proof.Machine
end

section
/-! PROOFS. The index register, the stores and the loads (43_index_memory.md). Three operations are one shared write of
`I`; a store and a load are one block access, which faults exactly at the lowest address outside the memory. -/

namespace Sys2Proof.Machine

/-! ## Words of family F -/

theorem encodedAs_of_familyF {i : Instr} {x : RegIdx} (nn : Nat) (hwf : i.WellFormed)
    (h : encode i = packXNN 0xF x nn) : EncodedAs (0xF000 + nn + x.val * 256) i :=
  encodedAs_encode hwf (h.trans (congrArg (BitVec.ofNat 16) (Nat.add_right_comm _ _ _)))

/-! ## Writes of the index register -/

/-- A meaning that writes the index register (43_index_memory.md R120 to R122). -/
theorem writeIndex_spec {i : Instr} {s : State} (w : Word) (h : exec i s = writeIndex w s) (hc : s.Canonical) :
    CompletesWith i s (fun p => p = .pc ∨ p = .index) (fun t => t.I = w ∧ t.pc = s.pc + 2) :=
  ⟨_, h, ⟨rfl, State.goto_pc_canonical hc _⟩, (index_frame s w).goto _⟩

theorem glyphAddress_toNat (vx : Byte) : (glyphAddress vx).toNat = 5 * (vx.toNat % 16) :=
  Nat.mod_eq_of_lt (by omega)

/-- Settles O19: the value written is the address field, or the sum of two words. -/
theorem indexLoadAndAdd : Obligations.IndexLoadAndAdd := by
  intro x nnn s hc
  refine ⟨encodedAs_encode rfl rfl, encodedAs_of_familyF 0x1E rfl rfl,
    (writeIndex_spec _ rfl hc).imp fun t ⟨hI, hpc⟩ => ⟨?_, hpc⟩,
    (writeIndex_spec _ rfl hc).imp fun t ⟨hI, hpc⟩ => ⟨?_, hpc⟩⟩
  · rw [hI, zextAddr_toNat]
  · rw [hI, BitVec.toNat_add, zextByte_toNat]

/-- Settles O20: the value written is the glyph address, which fits a word. -/
theorem glyphAddressIsFiveTimesLowNibble : Obligations.GlyphAddressIsFiveTimesLowNibble := by
  intro x s hc
  refine ⟨encodedAs_of_familyF 0x29 rfl rfl, (writeIndex_spec _ rfl hc).imp fun t ⟨hI, hpc⟩ => ⟨?_, hpc⟩⟩
  rw [hI, glyphAddress_toNat]

/-! ## Block accesses, by where their addresses lie -/

/-- There is one lowest address outside the memory (60_exceptions.md R153). -/
theorem FirstOutOfRange.unique {s : State} {n : Nat} {c c' : FaultCause} (h : FirstOutOfRange s n c)
    (h' : FirstOutOfRange s n c') : c = c' := by
  obtain ⟨k, -, hout, hlow, rfl⟩ := h
  obtain ⟨k', -, hout', hlow', rfl⟩ := h'
  have hle : k' ≤ k := Nat.le_of_not_lt fun hlt => absurd (hlow' k hlt) hout.not_gt
  have hge : k ≤ k' := Nat.le_of_not_lt fun hlt => absurd (hlow k' hlt) hout'.not_gt
  rw [Nat.le_antisymm hge hle]

theorem writeBlock_of_inside (m : Memory) {a : Nat} {bs : List Byte} (h : a + bs.length ≤ memSize) :
    writeBlock m a bs = .ok (m.writeBytes a bs) := by
  obtain ⟨-, hok⟩ | ⟨k, hk, hout, -⟩ := writeBlock_cases m a bs
  · exact hok
  · omega

theorem writeBlock_of_firstOutOfRange {s : State} {bs : List Byte} {c : FaultCause}
    (h : FirstOutOfRange s bs.length c) : writeBlock s.mem s.I.toNat bs = .error c := by
  obtain ⟨hin, -⟩ | ⟨k, -, -, -, herr⟩ := writeBlock_cases s.mem s.I.toNat bs
  · obtain ⟨k, hk, hout, -⟩ := h
    exact absurd (hin k hk) hout.not_gt
  · rw [h.unique (firstOutOfRange_of_writeBlock herr), herr]

theorem readBlock_of_inside (m : Memory) {a n : Nat} (h : a + n ≤ memSize) :
    ∃ bs, readBlock m a n = .ok bs ∧ bs.length = n ∧ ∀ k, k < n → bs.getD k 0 = m.read (a + k) := by
  obtain ⟨-, hok⟩ | ⟨k, hk, hout, -⟩ := readBlock_cases m a n
  · exact hok
  · omega

theorem readBlock_of_firstOutOfRange {s : State} {n : Nat} {c : FaultCause} (h : FirstOutOfRange s n c) :
    readBlock s.mem s.I.toNat n = .error c := by
  obtain ⟨hin, -⟩ | ⟨k, -, -, -, herr⟩ := readBlock_cases s.mem s.I.toNat n
  · obtain ⟨k, hk, hout, -⟩ := h
    exact absurd (hin k hk) hout.not_gt
  · rw [h.unique (firstOutOfRange_of_readBlock herr), herr]

/-! ## Stores -/

/-- A store that leaves the memory faults at the lowest address outside it (43_index_memory.md, header). -/
theorem storeAtIndex_raises {i : Instr} {s : State} {bs : List Byte} {c : FaultCause}
    (h : exec i s = storeAtIndex i bs s) (hout : FirstOutOfRange s bs.length c) : Raises i s c :=
  raises_of_access_error (h.trans (storeAtIndex_eq i bs s)) (writeBlock_of_firstOutOfRange hout)

/-- A store inside the memory writes its bytes from `I` up (43_index_memory.md R123, R124). -/
theorem storeAtIndex_spec {i : Instr} {s : State} {bs : List Byte} (h : exec i s = storeAtIndex i bs s)
    (hin : s.I.toNat + bs.length ≤ memSize) (hc : s.Canonical) :
    CompletesWith i s (fun p => p = .pc ∨ ∃ k, k < bs.length ∧ p = .mem (s.I.toNat + k))
      (fun t => t.mem = s.mem.writeBytes s.I.toNat bs ∧ t.pc = s.pc + 2) :=
  have hok := writeBlock_of_inside s.mem hin
  ⟨_, exec_of_access_ok (h.trans (storeAtIndex_eq i bs s)) hok, ⟨rfl, State.goto_pc_canonical hc _⟩, store_frame hok⟩

theorem Memory.read_writeBytes_of_lt (m : Memory) (a : Nat) {bs : List Byte} {k : Nat} (h : k < bs.length) :
    (m.writeBytes a bs).read (a + k) = bs.getD k 0 := by
  rw [Memory.read_writeBytes, if_pos ⟨Nat.le_add_right a k, Nat.add_lt_add_left h a⟩, Nat.add_sub_cancel_left]

/-- The three decimal digits, each of which fits a byte (43_index_memory.md R123). -/
theorem decimalDigits_toNat (vx : Byte) :
    ((decimalDigits vx).getD 0 0).toNat = vx.toNat / 100 ∧
      ((decimalDigits vx).getD 1 0).toNat = vx.toNat / 10 % 10 ∧
      ((decimalDigits vx).getD 2 0).toNat = vx.toNat % 10 := by
  have := vx.isLt
  exact ⟨Nat.mod_eq_of_lt (by omega), Nat.mod_eq_of_lt (by omega), Nat.mod_eq_of_lt (by omega)⟩

/-- Settles O21: the store is the shared one, on the three digits. -/
theorem decimalStoreWritesThreeDigits : Obligations.DecimalStoreWritesThreeDigits := by
  intro x s
  refine ⟨encodedAs_of_familyF 0x33 rfl rfl, fun c hout => storeAtIndex_raises rfl hout, fun hin hc => ?_⟩
  have hstore := storeAtIndex_spec (i := .ldB x) (bs := decimalDigits (s.reg x)) rfl hin hc
  refine hstore.imp fun t ⟨hmem, hpc⟩ => ?_
  have hread (k : Nat) (hk : k < 3) : t.mem.read (s.I.toNat + k) = (decimalDigits (s.reg x)).getD k 0 :=
    hmem ▸ Memory.read_writeBytes_of_lt s.mem s.I.toNat hk
  obtain ⟨hhundreds, htens, hones⟩ := decimalDigits_toNat (s.reg x)
  rw [← hread 0 (by decide)] at hhundreds
  rw [← hread 1 (by decide)] at htens
  rw [← hread 2 (by decide)] at hones
  exact ⟨hhundreds, htens, hones, hpc⟩

/-- Settles O22: the store is the shared one, on the registers up to `Vx`. -/
theorem blockStoreCopiesRegisters : Obligations.BlockStoreCopiesRegisters := by
  intro x s
  have hlen := s.length_regsUpTo x
  refine ⟨encodedAs_of_familyF 0x55 rfl rfl, fun c hout => storeAtIndex_raises rfl (hlen ▸ hout), fun hin hc => ?_⟩
  have hstore := storeAtIndex_spec (i := .storeRegs x) rfl (hlen ▸ hin) hc
  simp only [hlen, Nat.lt_succ_iff] at hstore
  refine hstore.imp fun t ⟨hmem, hpc⟩ => ⟨fun r hr => ?_, hpc⟩
  rw [hmem, read_writeBytes_regsUpTo s s.mem s.I.toNat hr]

/-! ## Loads -/

/-- `LD Vx, [I]` inside the memory loads a list of bytes, which is the memory's from `I` up (43_index_memory.md R125). -/
theorem exec_loadRegs_of_inside {s : State} {x : RegIdx} (hin : s.I.toNat + x.val < memSize) :
    ∃ bs, exec (.loadRegs x) s = .next (s.loadRegsFrom bs).advance ∧ bs.length = x.val + 1 ∧
      ∀ r : RegIdx, r ≤ x → (s.loadRegsFrom bs).reg r = s.mem.read (s.I.toNat + r.val) := by
  obtain ⟨bs, hok, hlen, hbs⟩ := readBlock_of_inside s.mem (n := x.val + 1) hin
  have hexec := exec_of_access_ok (i := .loadRegs x) (execLoadRegs_eq x s) hok
  refine ⟨bs, hexec, hlen, fun r hr => ?_⟩
  have hlt : r.val < x.val + 1 := Nat.lt_succ_of_le hr
  rw [State.reg_loadRegsFrom, hlen, if_pos hlt, hbs r.val hlt]

/-- Settles O23: the load is one block read, and then one write of the registers up to `Vx`. -/
theorem blockLoadCopiesMemory : Obligations.BlockLoadCopiesMemory := by
  intro x s
  refine ⟨encodedAs_of_familyF 0x65 rfl rfl, fun c hout =>
    raises_of_access_error (execLoadRegs_eq x s) (readBlock_of_firstOutOfRange hout), fun hin hc => ?_⟩
  obtain ⟨bs, hexec, hlen, hreg⟩ := exec_loadRegs_of_inside hin
  have hframe := s.loadRegsFrom_frame bs
  simp only [hlen, Nat.lt_succ_iff] at hframe
  exact ⟨_, hexec, ⟨hreg, State.goto_pc_canonical hc _⟩, hframe.goto _⟩

/-- Settles O24: the load reads, from the same addresses, the bytes that the store has put there. -/
theorem blockStoreThenLoadRestores : Obligations.BlockStoreThenLoadRestores := by
  intro x s hin
  have hstore := exec_storeRegs_of_inside hin
  refine ⟨_, hstore, fun u hmem (hI : u.I = s.I) => ?_⟩
  obtain ⟨bs, hload, -, hreg⟩ := exec_loadRegs_of_inside (s := u) (hI ▸ hin)
  refine ⟨_, hload, fun r hr => ?_⟩
  calc (u.loadRegsFrom bs).reg r = u.mem.read (u.I.toNat + r.val) := hreg r hr
    _ = s.reg r := by rw [hmem, hI]; exact read_of_exec_storeRegs hin hstore hr

end Sys2Proof.Machine
end

section
/-! PROOFS. The framebuffer instructions (44_display.md). `DRW` has one rule, under either contract: it toggles the cells
the sprite hits and writes the collision. What is left is the pc and, for two draws, that both hit the same cells. -/

namespace Sys2Proof.Machine

/-! ## Sprite bits and cells -/

theorem eq_screenColumn_iff (vx : Byte) (c : Nat) (px : Fin 64) :
    px = screenColumn vx c ↔ (vx.toNat + c) % 64 = px.val := Fin.ext_iff.trans eq_comm

theorem eq_screenRow_iff (vy : Byte) (r : Nat) (py : Fin 32) :
    py = screenRow vy r ↔ (vy.toNat + r) % 32 = py.val := Fin.ext_iff.trans eq_comm

/-- The rows read from `I` up hit the cells that the sprite in memory does (44_display.md R131, R132). -/
theorem spriteRowsHit_iff_spriteHits {s : State} {n : Nat} {rows : List Byte} (hlen : rows.length = n)
    (hrows : ∀ k, k < n → rows.getD k 0 = s.mem.read (s.I.toNat + k)) (x y : RegIdx) (px : Fin 64) (py : Fin 32) :
    spriteRowsHit (s.reg x) (s.reg y) 0 rows px py ↔ SpriteHits s x y n px py := by
  simp only [spriteRowsHit, SpriteHits, hlen, spriteBit, Nat.zero_add, eq_screenColumn_iff, eq_screenRow_iff]
  refine exists_congr fun k => exists_congr fun c => and_congr_right fun hk => ?_
  rw [hrows k hk]

/-- The cells a sprite hits depend on the memory, the index register and the two coordinates only. -/
theorem spriteHits_congr {s t : State} {x y : RegIdx} (hmem : ∀ a, t.mem.read a = s.mem.read a) (hI : t.I = s.I)
    (hx : t.reg x = s.reg x) (hy : t.reg y = s.reg y) (n : Nat) (px : Fin 64) (py : Fin 32) :
    SpriteHits t x y n px py ↔ SpriteHits s x y n px py := by
  simp only [SpriteHits, hmem, hI, hx, hy]

section
variable {vx vy : Byte} {r : Nat} {rows : List Byte} {px : Fin 64} {py : Fin 32}

theorem pixel_xorRows_of_hit (hn : rows.length ≤ 32) (d : Framebuffer × Bool)
    (h : spriteRowsHit vx vy r rows px py) : (xorRows vx vy r rows d).1.pixel px py = !d.1.pixel px py := by
  obtain ⟨hpixel, -⟩ := xorRows_spec vx vy r rows hn d
  rw [Bool.eq_iff_iff, hpixel]
  simp [h]

theorem pixel_xorRows_of_not_hit (hn : rows.length ≤ 32) (d : Framebuffer × Bool)
    (h : ¬ spriteRowsHit vx vy r rows px py) : (xorRows vx vy r rows d).1.pixel px py = d.1.pixel px py := by
  obtain ⟨hpixel, -⟩ := xorRows_spec vx vy r rows hn d
  rw [Bool.eq_iff_iff, hpixel]
  simp [h]

end

/-- The frame of a framebuffer that differs at some cells only. -/
theorem fb_frame_of_pixels {s : State} {fb : Framebuffer} {hit : Fin 64 → Fin 32 → Prop}
    (h : ∀ px py, ¬ hit px py → fb.pixel px py = s.fb.pixel px py) :
    OnlyChanges (fun p => ∃ px py, p = .pixel px py ∧ hit px py) s { s with fb := fb } := by
  intro p hp
  cases p with
  | pixel px py => exact h px py fun hh => hp ⟨px, py, rfl, hh⟩
  | _ => rfl

/-! ## The two instructions -/

/-- Settles O26: the framebuffer is replaced by the clear one. -/
theorem clearSetsEveryCellFalse : Obligations.ClearSetsEveryCellFalse := by
  intro s hc
  exact ⟨encodedAs_encode rfl rfl, _, rfl, ⟨Framebuffer.pixel_clear, State.goto_pc_canonical hc _⟩,
    (fb_frame s _).goto _⟩

/-- A sprite inside the memory is drawn (44_display.md R131, R133), under either contract. A sprite of no rows is inside,
whatever `I` is. -/
theorem drw_completes {x y : RegIdx} {n : Fin 16} {s : State} (hin : ∀ r, r < n.val → s.I.toNat + r < 4096) :
    CompletesWith (.drw x y n) s
      (fun p => p = .pc ∨ p = .reg 0xF ∨ ∃ px py, p = .pixel px py ∧ SpriteHits s x y n.val px py)
      (fun t =>
        (∀ px py, SpriteHits s x y n.val px py → t.fb.pixel px py = !s.fb.pixel px py) ∧
        ((∃ px py, SpriteHits s x y n.val px py ∧ s.fb.pixel px py = true) → t.reg 0xF = 1) ∧
        ((∀ px py, SpriteHits s x y n.val px py → s.fb.pixel px py = false) → t.reg 0xF = 0) ∧
        t.pc = finalPc s.config.pcContract (s.pc + 2)) := by
  obtain ⟨-, rows, hok, hlen, hrows⟩ | ⟨k, hk, hout, -⟩ := readBlock_cases s.mem s.I.toNat n.val
  · have hn : rows.length ≤ 32 := by omega
    have hhit := spriteRowsHit_iff_spriteHits hlen hrows x y
    obtain ⟨-, hcollision⟩ := xorRows_spec (s.reg x) (s.reg y) 0 rows hn (s.fb, false)
    simp only [hhit, Bool.false_eq_true, false_or] at hcollision
    have hflag : (drawRows x y s rows).reg 0xF = flagByte (xorRows (s.reg x) (s.reg y) 0 rows (s.fb, false)).2 :=
      State.reg_setReg_same _ 0xF _
    refine ⟨_, exec_of_access_ok (execDrw_eq x y n s) hok,
      ⟨fun px py h => pixel_xorRows_of_hit hn (s.fb, false) ((hhit px py).mpr h), fun hset => ?_, fun hclear => ?_,
        rfl⟩, ?_⟩
    · rw [hflag, hcollision.mpr hset]
      rfl
    · have hnone : (xorRows (s.reg x) (s.reg y) 0 rows (s.fb, false)).2 = false := by
        rw [← Bool.not_eq_true, hcollision]
        rintro ⟨px, py, h, hpix⟩
        exact absurd ((hclear px py h).symm.trans hpix) nofun
      rw [hflag, hnone]
      rfl
    · have hfb := fb_frame_of_pixels (s := s) fun px py h =>
        pixel_xorRows_of_not_hit hn (s.fb, false) (mt (hhit px py).mp h)
      exact ((hfb.trans (State.setFlag_frame _ _)).mono fun _ => Or.symm).goto _
  · exact absurd (hin k hk) hout.not_gt

/-- Settles O27: the fault of the block read, or the rule of a sprite inside the memory. -/
theorem drawXorsSpriteAndReportsCollision : Obligations.DrawXorsSpriteAndReportsCollision := by
  intro x y n s
  refine ⟨encodedAs_encode rfl rfl, fun c hout =>
    raises_of_access_error (execDrw_eq x y n s) (readBlock_of_firstOutOfRange hout), fun hin hc => ?_⟩
  refine (drw_completes hin).imp fun t ⟨htoggle, hset, hclear, hpc⟩ => ⟨htoggle, hset, hclear, ?_⟩
  rw [hpc, hc, finalPc]

/-- Settles O28: the first draw leaves what decides the hit cells, so the second toggles the same cells again. -/
theorem drawTwiceRestoresDisplay : Obligations.DrawTwiceRestoresDisplay := by
  intro x y n s hx hy hin
  obtain ⟨t, ht, ⟨htoggle, -, hclear, -⟩, hframe⟩ := drw_completes (x := x) (y := y) hin
  have hreg (q : RegIdx) (hq : q ≠ 0xF) : t.reg q = s.reg q := hframe (.reg q) (by simp [hq])
  have hI : t.I = s.I := hframe .index (by simp)
  have hhits := spriteHits_congr (fun a => hframe (.mem a) (by simp)) hI (hreg x hx) (hreg y hy) n.val
  obtain ⟨u, hu, ⟨htoggle', hset', -, -⟩, hframe'⟩ := drw_completes (x := x) (y := y) (s := t) (hI ▸ hin)
  simp only [hhits] at htoggle' hset' hframe'
  refine ⟨t, u, ht, hu, fun px py => ?_, fun hcells => ⟨hclear hcells, fun ⟨px, py, h⟩ => hset' ⟨px, py, h, ?_⟩⟩⟩
  · by_cases h : SpriteHits s x y n.val px py
    · rw [htoggle' px py h, htoggle px py h, Bool.not_not]
    · exact (hframe (.pixel px py) (by simp [h])).trans (hframe' (.pixel px py) (by simp [h]))
  · rw [htoggle px py h, hcells px py h, Bool.not_false]

end Sys2Proof.Machine
end

section
/-! PROOFS. The keypad and the timers (45_keys_timers.md). The two key skips are one shared skip, on the key that `Vx`
names; the timer moves are one write and an advance. -/

namespace Sys2Proof.Machine

/-! ## Words of family E -/

theorem encodedAs_of_familyE {i : Instr} {x : RegIdx} (nn : Nat) (hwf : i.WellFormed)
    (h : encode i = packXNN 0xE x nn) : EncodedAs (0xE000 + nn + x.val * 256) i :=
  encodedAs_encode hwf (h.trans (congrArg (BitVec.ofNat 16) (Nat.add_right_comm _ _ _)))

/-! ## The key that a value names (45_keys_timers.md R140) -/

theorem State.keyOf_of_lt {s : State} {vx : Byte} {k : Fin 16} (h : vx.toNat = k.val) :
    s.keyOf vx = .ok (s.keyAt k) := by
  obtain ⟨j, hj, hok⟩ | ⟨hge, -⟩ := s.keyOf_cases vx
  · obtain rfl : j = k := Fin.ext (hj.symm.trans h)
    exact hok
  · omega

theorem State.keyOf_of_ge {s : State} {vx : Byte} (h : 16 ≤ vx.toNat) : s.keyOf vx = .error (.keyIndexRange vx) := by
  obtain ⟨k, hk, -⟩ | ⟨-, herr⟩ := s.keyOf_cases vx
  · omega
  · exact herr

/-! ## Key skips -/

/-- A key skip on a value that names no key (45_keys_timers.md R140, R141). -/
theorem skipOnKey_raises {i : Instr} {s : State} {x : RegIdx} {level : Bool} (h : exec i s = skipOnKey i x level s)
    (hge : 16 ≤ (s.reg x).toNat) : Raises i s (.keyIndexRange (s.reg x)) :=
  raises_of_access_error (h.trans (skipOnKey_eq i x level s)) (State.keyOf_of_ge hge)

/-- A key skip on a value that names a key skips exactly when the key is at the level (45_keys_timers.md R140, R141). -/
theorem skipOnKey_spec {i : Instr} {s : State} {x : RegIdx} {level : Bool} {k : Fin 16}
    (h : exec i s = skipOnKey i x level s) (hk : (s.reg x).toNat = k.val) (hc : s.Canonical) :
    CompletesWith i s (· = .pc)
      (fun t => (s.keyAt k = level → t.pc = s.pc + 4) ∧ (s.keyAt k = !level → t.pc = s.pc + 2)) :=
  have hskip : exec i s = .next (s.skipIf (s.keyAt k == level)) :=
    exec_of_access_ok (f := fun key => s.skipIf (key == level)) (h.trans (skipOnKey_eq i x level s))
      (State.keyOf_of_lt hk)
  skipIf_spec hskip hc beq_iff_eq (beq_eq_false_iff_ne.trans Bool.eq_not.symm)

/-- Settles O30: both skips are the shared one, `SKP` on the level true and `SKNP` on the level false. -/
theorem keySkipsTestKeyLevel : Obligations.KeySkipsTestKeyLevel := by
  intro x s
  refine ⟨encodedAs_of_familyE 0x9E rfl rfl, encodedAs_of_familyE 0xA1 rfl rfl, fun hge => ⟨?_, ?_⟩, fun k hk hc => ⟨?_, ?_⟩⟩
  · exact skipOnKey_raises rfl hge
  · exact skipOnKey_raises rfl hge
  · exact skipOnKey_spec (i := .skp x) rfl hk hc
  · exact skipOnKey_spec (i := .sknp x) rfl hk hc

/-! ## Timers -/

/-- Settles O31: each move is one write, of the register or of the delay timer, and then the advance. -/
theorem delayTimerMoves : Obligations.DelayTimerMoves := by
  intro x s hc
  refine ⟨encodedAs_of_familyF 0x07 rfl rfl, encodedAs_of_familyF 0x15 rfl rfl, writeResult_spec x s.dt rfl hc, ?_⟩
  exact ⟨_, rfl, ⟨rfl, State.goto_pc_canonical hc _⟩, (delayTimer_frame s _).goto _⟩

/-- A step command that fetches an instruction which completes and leaves the fault record replies `ok`
(40_pipeline.md R70). -/
theorem stepReply_of_completes {i : Instr} {s : State} {written : Part → Prop} {post : State → Prop}
    (h : CompletesWith i s written post) (hw : ¬ written .fault) (hwf : i.WellFormed) (hs : s.fault = none)
    (hfetch : fetch s = .ok (encode i)) : (runCommand .step s).2 = .ok := by
  obtain ⟨t, hexec, -, hframe⟩ := h
  have hstep : step s = .next t := (step_of_decoded hs hfetch (decodeWord_encode hwf)).trans hexec
  have hkeep : t.fault = s.fault := hframe .fault hw
  simp only [runCommand, stepCommand, hstep, hkeep, hs]

/-- Settles O32: the instruction completes without a fault, and a step command that completes replies `ok`. -/
theorem soundTimerWriteEmitsNoEdge : Obligations.SoundTimerWriteEmitsNoEdge := by
  intro x s hc
  have hspec : CompletesWith (.ldStVx x) s (fun p => p = .pc ∨ p = .soundTimer)
      (fun t => t.st = s.reg x ∧ t.pc = s.pc + 2) :=
    ⟨_, rfl, ⟨rfl, State.goto_pc_canonical hc _⟩, (soundTimer_frame s _).goto _⟩
  exact ⟨encodedAs_of_familyF 0x18 rfl rfl, hspec, stepReply_of_completes hspec (by simp) rfl⟩

/-! ## The wait for a key (45_keys_timers.md R145) -/

theorem exec_ldVxK_of_anyKey {s : State} {x : RegIdx} (hkey : s.anyKey = true) :
    exec (.ldVxK x) s = .next ({ s with draws := s.draws + 1 }.setReg x (Config.waitKeyDraw s.draws)).advance :=
  if_pos hkey

/-- Settles O33: with a key pressed the draw is taken into the register; with none the contract decides. -/
theorem waitKeyReadsDrawOrWaits : Obligations.WaitKeyReadsDrawOrWaits := by
  intro x s
  refine ⟨encodedAs_of_familyF 0x0A rfl rfl, fun hkey hc => ?_, fun hkey hc => ?_, fun hkey hc => ?_⟩
  · exact ⟨_, exec_ldVxK_of_anyKey (s.anyKey_iff.mpr hkey),
      ⟨State.reg_setReg_same _ x _, rfl, State.goto_pc_canonical hc _⟩, drawToReg_frame s x _⟩
  · rw [exec_wait_canonical (s.anyKey_eq_false_iff.mpr hkey) hc, State.goto_own_pc hc]
  · exact exec_wait_referenceDouble (s.anyKey_eq_false_iff.mpr hkey) hc

end Sys2Proof.Machine
end

section
/-! PROOFS. The host's commands on the timers, the keypad, the memory and the framebuffer (60_exceptions.md R162 to
R166). -/

namespace Sys2Proof.Machine

/-! ## The timer tick (60_exceptions.md R162, R163) -/

theorem decrement_toNat (b : Byte) : (decrement b).toNat = b.toNat - 1 := by
  unfold decrement
  split
  · simp [*]
  · bv_omega

theorem timerTick_frame (s : State) :
    OnlyChanges (fun p => p = .delayTimer ∨ p = .soundTimer) s (timerTick s).1 :=
  (delayTimer_frame s _).trans (soundTimer_frame { s with dt := decrement s.dt } (decrement s.st))

/-- Settles O56: each timer is decremented, and the tick is the two writes. -/
theorem timerTickDecrementsBothTimers : Obligations.TimerTickDecrementsBothTimers :=
  fun s => ⟨decrement_toNat s.dt, decrement_toNat s.st, timerTick_frame s⟩

/-- The tick's edge is a sound timer that goes from 1 to 0 (60_exceptions.md R163). -/
theorem timerTick_edge_iff (s : State) : (timerTick s).2 = true ↔ s.st = 1 ∧ (timerTick s).1.st = 0 := by
  have hedge : (timerTick s).2 = true ↔ s.st = 1 := beq_iff_eq
  have hzero : s.st = 1 → (timerTick s).1.st = 0 := fun h => congrArg decrement h
  rw [hedge, and_iff_left_of_imp hzero]

theorem stepCommand_reply_ne_edge (s : State) (e : Bool) : (stepCommand s).2 ≠ .edge e := by
  unfold stepCommand
  split
  · split <;> nofun
  · nofun
  · nofun

theorem loadProgram_reply_ne_edge (image : List Byte) (s : State) (e : Bool) : (loadProgram image s).2 ≠ .edge e := by
  unfold loadProgram
  split <;> nofun

/-- Settles O57: the edge of the tick, and the replies of the other commands one by one. -/
theorem soundEdgeExactlyAtOneToZero : Obligations.SoundEdgeExactlyAtOneToZero := by
  refine ⟨fun s => ⟨_, rfl, timerTick_edge_iff s⟩, fun c s e h => ?_⟩
  cases c with
  | timerTick => rfl
  | load image => exact absurd h (loadProgram_reply_ne_edge image s e)
  | step => exact absurd h (stepCommand_reply_ne_edge s e)
  | reset | setKey | readDisplay => cases h

/-! ## The key setter (60_exceptions.md R164) -/

theorem setKey_frame (index : Nat) (pressed : Bool) (s : State) :
    OnlyChanges (fun p => ∃ k : Fin 16, k.val = index ∧ p = .key k) s (setKey index pressed s) := by
  intro p hp
  cases p with
  | key k =>
    have hne : index ≠ k.val := fun h => hp ⟨k, h.symm, rfl⟩
    simp [Part.Same, State.keyAt, setKey, Vector.get_eq_getElem, hne]
  | _ => rfl

theorem keyAt_setKey_same (k : Fin 16) (pressed : Bool) (s : State) : (setKey k.val pressed s).keyAt k = pressed := by
  simp [State.keyAt, setKey, Vector.get_eq_getElem]

theorem setKey_of_outside {index : Nat} (h : 16 ≤ index) (pressed : Bool) (s : State) :
    setKey index pressed s = s := by
  rw [setKey, Vector.setIfInBounds_eq_of_size_le h]

/-- Settles O58: the cell at the index and the frame around it, or an index outside the keypad. -/
theorem setKeySetsOneCell : Obligations.SetKeySetsOneCell := by
  refine fun index pressed s => ⟨rfl, ?_, fun hout => setKey_of_outside hout pressed s⟩
  rintro k rfl
  refine ⟨keyAt_setKey_same k pressed s, (setKey_frame k.val pressed s).mono ?_⟩
  rintro p ⟨j, hj, rfl⟩
  exact congrArg Part.key (Fin.ext hj)

/-! ## The load (60_exceptions.md R166) -/

theorem loadProgram_of_fits {image : List Byte} (h : image.length ≤ maxProgram) (s : State) :
    loadProgram image s = ({ s with mem := s.mem.writeBytes programBase image }, .ok) := if_pos h

theorem loadProgram_of_tooLarge {image : List Byte} (h : maxProgram < image.length) (s : State) :
    loadProgram image s = (s, .loadTooLarge) := if_neg h.not_ge

/-- Settles O55: an image that fits is one write of its bytes, whose cells and frame are known. -/
theorem loadPlacesImageOrRefuses : Obligations.LoadPlacesImageOrRefuses := by
  refine fun image s => ⟨fun hfits => ?_, fun hlarge => loadProgram_of_tooLarge hlarge s⟩
  rw [runCommand, loadProgram_of_fits hfits]
  refine ⟨rfl, fun k hk => ?_, writeBytes_frame s programBase image⟩
  rw [Memory.read_writeBytes_of_lt s.mem programBase hk, List.getD_eq_getElem _ _ hk, List.getElem?_eq_getElem hk]

/-! ## The display (60_exceptions.md R165) -/

/-- The cells read are the framebuffer's rows, one after the other. -/
theorem readDisplay_eq_flatten (s : State) : readDisplay s = s.fb.flatten.toList := by
  have hrows : s.fb.toList.map Vector.toList = (s.fb.toArray.map Vector.toArray).toList.map Array.toList := by
    rw [Array.toList_map, List.map_map]
    rfl
  rw [readDisplay, hrows]
  exact Array.toList_flatten.symm

/-- Settles O59: the flat sequence at `y * 64 + x` is row `y` at column `x`. -/
theorem readDisplayIsRowMajor : Obligations.ReadDisplayIsRowMajor := by
  refine fun s => ⟨readDisplay s, rfl, ?_, fun x y => ?_⟩
  · rw [readDisplay_eq_flatten, Vector.length_toList]
  · have hrow : (y.val * 64 + x.val) / 64 = y.val := by omega
    have hcolumn : (y.val * 64 + x.val) % 64 = x.val := by omega
    have hcell : y.val * 64 + x.val < 32 * 64 := by omega
    rw [readDisplay_eq_flatten, Vector.getElem?_toList, Vector.getElem?_flatten, dif_pos hcell]
    simp only [hrow, hcolumn]
    rfl

end Sys2Proof.Machine
end

section
/-! PROOFS. The causes an instruction raises (60_exceptions.md R152). -/

namespace Sys2Proof.Machine

theorem State.pop_of_empty {s : State} (h : s.sp.val = 0) : s.pop = .error .stackUnderflow := dif_pos h

theorem State.push_of_full {s : State} (h : s.sp.val = 16) (w : Word) : s.push w = .error .stackOverflow :=
  dif_neg (by omega)

/-- An instruction raises each cause that the table gives it (60_exceptions.md R152). -/
theorem raises_of_raisesIn {i : Instr} {s : State} {c : FaultCause} (h : RaisesIn i s c) : Raises i s c := by
  cases i with
  | sys nnn =>
    obtain ⟨hpolicy, rfl⟩ := h
    exact raises_of_exec (exec_sys_of_fault hpolicy)
  | ret =>
    obtain ⟨hempty, rfl⟩ := h
    exact raises_of_access_error (execRet_eq s) (State.pop_of_empty hempty)
  | call nnn =>
    obtain ⟨hfull, rfl⟩ := h
    exact raises_of_access_error (execCall_eq nnn s) (State.push_of_full hfull _)
  | skp x | sknp x =>
    obtain ⟨hrange, rfl⟩ := h
    exact skipOnKey_raises rfl hrange
  | drw x y n => exact raises_of_access_error (execDrw_eq x y n s) (readBlock_of_firstOutOfRange h)
  | ldB x => exact storeAtIndex_raises (bs := decimalDigits (s.reg x)) rfl h
  | storeRegs x => exact storeAtIndex_raises rfl ((s.length_regsUpTo x).symm ▸ h)
  | loadRegs x => exact raises_of_access_error (execLoadRegs_eq x s) (readBlock_of_firstOutOfRange h)
  | _ => exact h.elim

/-- An instruction answers a next state, but for the refused wait (40_pipeline.md R75). -/
theorem exec_next_or_refused (i : Instr) (s : State) :
    (∃ t, exec i s = .next t) ∨
    (exec i s = .refused .waitKeyReferenceDouble ∧ (∃ x, i = .ldVxK x) ∧ s.anyKey = false ∧
      s.config.pcContract = .referenceDouble) := by
  cases hc : s.config.pcContract with
  | canonical => exact .inl (exec_next_of_canonical i hc)
  | referenceDouble =>
    cases exec_ending i s with
    | completes u q _ _ hexec => exact .inl ⟨_, hexec s.config.pcContract⟩
    | raises cause hexec => exact .inl ⟨_, hexec s.config.pcContract⟩
    | waits x hi hkey => exact .inr ⟨hi ▸ exec_wait_referenceDouble hkey hc, ⟨x, hi⟩, hkey, rfl⟩

theorem not_mayWrite_fault (i : Instr) (s : State) : ¬ MayWrite i s .fault := by
  cases i <;> simp [MayWrite]

/-- An instruction that answers a next state keeps the fault record, or records one of its causes and does nothing
else. -/
theorem exec_fault_cases {i : Instr} {s t : State} (h : exec i s = .next t) :
    t.fault = s.fault ∨ ∃ c, RaisesIn i s c ∧ t = raise c (some (encode i)) s :=
  (exec_writesOwnOrRaises h).imp_left fun hown => hown .fault (not_mayWrite_fault i s)

/-- Settles O39: the causes of the table are raised, and an outcome without one keeps the record or is the refused
wait. -/
theorem instructionsRaiseExactlyTheirCauses : Obligations.InstructionsRaiseExactlyTheirCauses := by
  refine fun i s => ⟨fun c => raises_of_raisesIn, fun hnone => ?_⟩
  obtain ⟨t, ht⟩ | ⟨href, hwait, hkey, hc⟩ := exec_next_or_refused i s
  · obtain hkeep | ⟨c, hc, -⟩ := exec_fault_cases ht
    · exact .inl ⟨t, ht, hkeep⟩
    · exact absurd hc (hnone c)
  · exact .inr ⟨href, hwait, s.anyKey_eq_false_iff.mp hkey, hc⟩

end Sys2Proof.Machine
end

section
/-! PROOFS. The fault record (60_exceptions.md R151, R154 to R156): what a step records, that a faulted machine refuses
every step, and that every command keeps the record consistent. -/

namespace Sys2Proof.Machine

/-! ## What a step records -/

/-- The faults that a step in the state `s` raises, each with the word its record holds (60_exceptions.md R151,
R156). -/
inductive StepRaises (s : State) : FaultCause → Option Word → Prop where
  | ofFetch {c : FaultCause} (hfetch : fetch s = .error c) : StepRaises s c none
  | ofDecode {w : Word} (hfetch : fetch s = .ok w) (hdecode : decodeWord w = .error (.illegal w)) :
      StepRaises s (.illegalInstruction w) (some w)
  | ofExec {w : Word} {i : Instr} {c : FaultCause} (hfetch : fetch s = .ok w) (hdecode : decodeWord w = .ok i)
      (hraises : RaisesIn i s c) : StepRaises s c (some w)

/-- A step that answers a next state runs without a fault, or records the one it raises and does nothing else
(60_exceptions.md R154, R156). -/
theorem step_fault_cases {s t : State} (h : step s = .next t) :
    s.fault = none ∧ (t.fault = none ∨ ∃ c w, StepRaises s c w ∧ t = raise c w s) := by
  obtain ⟨hs, hcases⟩ := step_next h
  refine ⟨hs, ?_⟩
  obtain ⟨c, hfetch, rfl⟩ | ⟨w, e, hfetch, hdecode, rfl⟩ | ⟨w, i, hfetch, hdecode, hexec⟩ := hcases
  · exact .inr ⟨c, none, .ofFetch hfetch, rfl⟩
  · obtain ⟨rfl, -⟩ := decodeWord_error_iff.mp hdecode
    exact .inr ⟨_, some w, .ofDecode hfetch hdecode, rfl⟩
  · obtain hkeep | ⟨c, hc, rfl⟩ := exec_fault_cases hexec
    · exact .inl (hkeep.trans hs)
    · obtain ⟨-, hword⟩ := isWordOf_of_decodeWord hdecode
      exact .inr ⟨c, some w, .ofExec hfetch hdecode hc, by rw [hword]⟩

/-- The record holds the fetched word but for a fetch fault, whose cause it holds (60_exceptions.md R156). -/
theorem StepRaises.word {s : State} {c : FaultCause} {w : Option Word} (h : StepRaises s c w) :
    (∀ v, fetch s = .ok v → w = some v) ∧ (∀ c', fetch s = .error c' → w = none ∧ c = c') := by
  cases h with
  | ofFetch hfetch =>
    rw [hfetch]
    exact ⟨nofun, fun c' h => ⟨rfl, Except.error.inj h⟩⟩
  | ofDecode hfetch | ofExec hfetch =>
    rw [hfetch]
    exact ⟨fun v h => congrArg some (Except.ok.inj h), nofun⟩

/-- Settles O38: the state after is the state before with the raised fault recorded. -/
theorem faultingStepWritesOnlyTheRecord : Obligations.FaultingStepWritesOnlyTheRecord := by
  intro s t r h ht
  obtain ⟨hs, hnone | ⟨c, w, hraises, rfl⟩⟩ := step_fault_cases h
  · exact absurd (hnone.symm.trans ht) nofun
  · obtain rfl := Option.some.inj ht
    exact ⟨hs, raise_frame c w s, rfl, hraises.word⟩

/-! ## The refusal of steps (60_exceptions.md R155) -/

theorem step_of_faulted {s : State} {r : FaultRecord} (h : s.fault = some r) : step s = .fault (.recorded r) := by
  simp only [step, h, refuseStep]

theorem stepCommand_of_faulted {s : State} {r : FaultRecord} (h : s.fault = some r) :
    stepCommand s = (s, .fault r) := by
  simp only [stepCommand, step_of_faulted h]

/-- Settles O37, by induction on the number of step commands. -/
theorem faultedMachineRefusesSteps : Obligations.FaultedMachineRefusesSteps := by
  refine fun n s r h => ⟨step_of_faulted h, ?_⟩
  induction n with
  | zero => rfl
  | succ n ih => simp only [List.replicate_succ, runCommands, runCommand, stepCommand_of_faulted h, ih]

/-! ## What a host command may write -/

/-- The parts of a state that a command other than `reset` and `step` writes (60_exceptions.md R162, R164, R166). -/
def HostWritten (p : Part) : Prop := (∃ a, p = .mem a) ∨ (∃ k, p = .key k) ∨ p = .delayTimer ∨ p = .soundTimer

theorem loadProgram_frame (image : List Byte) (s : State) :
    OnlyChanges (fun p => ∃ a, p = .mem a) s (loadProgram image s).1 := by
  by_cases hfits : image.length ≤ maxProgram
  · rw [loadProgram_of_fits hfits]
    refine (writeBytes_frame s programBase image).mono ?_
    rintro p ⟨k, -, hp⟩
    exact ⟨_, hp⟩
  · rw [loadProgram_of_tooLarge (Nat.lt_of_not_le hfits)]
    exact OnlyChanges.refl _ s

theorem runCommand_frame {c : Command} (hreset : c ≠ .reset) (hstep : c ≠ .step) (s : State) :
    OnlyChanges HostWritten s (runCommand c s).1 := by
  cases c with
  | reset => exact absurd rfl hreset
  | step => exact absurd rfl hstep
  | load image => exact (loadProgram_frame image s).mono fun _ => .inl
  | timerTick => exact (timerTick_frame s).mono fun _ h => .inr (.inr h)
  | setKey index pressed =>
    refine (setKey_frame index pressed s).mono ?_
    rintro p ⟨k, -, hp⟩
    exact .inr (.inl ⟨k, hp⟩)
  | readDisplay => exact OnlyChanges.refl _ s

/-- The load command commutes with a replacement of the fault record. -/
theorem loadProgram_fault (image : List Byte) (s : State) (f : Option FaultRecord) :
    loadProgram image { s with fault := f } =
      ({ (loadProgram image s).1 with fault := f }, (loadProgram image s).2) := by
  by_cases hfits : image.length ≤ maxProgram
  · rw [loadProgram_of_fits hfits, loadProgram_of_fits hfits]
  · have hlarge := Nat.lt_of_not_le hfits
    rw [loadProgram_of_tooLarge hlarge, loadProgram_of_tooLarge hlarge]

/-- Settles O60: the refused step leaves the state, and the other commands neither write nor read the record. -/
theorem commandsWorkOnFaultedMachine : Obligations.CommandsWorkOnFaultedMachine := by
  refine fun c s r hr hreset => ⟨?_, fun hstep => ?_⟩
  · by_cases hstep : c = .step
    · subst hstep
      rw [runCommand, stepCommand_of_faulted hr, hr]
    · have hkeep : (runCommand c s).1.fault = s.fault := runCommand_frame hreset hstep s .fault (by simp [HostWritten])
      rw [hkeep, hr]
  · cases c with
    | reset => exact absurd rfl hreset
    | step => exact absurd rfl hstep
    | load image => exact loadProgram_fault image s none
    | timerTick | setKey | readDisplay => rfl

/-! ## Consistency of the record -/

/-- The causes of an instruction depend on the registers, the index register, the stack pointer and the parameters only
(60_exceptions.md R152). -/
theorem raisesIn_congr {i : Instr} {s t : State} {c : FaultCause} (hreg : ∀ r, t.reg r = s.reg r) (hI : t.I = s.I)
    (hsp : t.sp = s.sp) (hconfig : t.config = s.config) : RaisesIn i t c ↔ RaisesIn i s c := by
  cases i with
  | sys nnn => simp only [RaisesIn, hconfig]
  | ret | call => simp only [RaisesIn, hsp]
  | skp | sknp => simp only [RaisesIn, hreg]
  | drw | ldB | storeRegs | loadRegs => simp only [RaisesIn, FirstOutOfRange, hI]
  | _ => rfl

theorem faultRecordConsistent_of_fault_none {s : State} (h : s.fault = none) : FaultRecordConsistent s :=
  fun _ hr => absurd (h.symm.trans hr) nofun

/-- The record that a step writes is consistent (60_exceptions.md R151, R156). -/
theorem StepRaises.consistent {s : State} {c : FaultCause} {w : Option Word} (h : StepRaises s c w) :
    FaultRecordConsistent (raise c w s) := by
  rintro r hr
  obtain rfl := Option.some.inj hr
  refine ⟨rfl, ?_, ?_⟩
  · rintro (rfl : w = none)
    cases h with
    | ofFetch hfetch => exact fetch_fault hfetch
  · rintro v (rfl : w = some v)
    cases h with
    | ofDecode hfetch hdecode => exact .inl ⟨rfl, hdecode⟩
    | ofExec hfetch hdecode hraises =>
      exact .inr ⟨_, hdecode, (raisesIn_congr (fun _ => rfl) rfl rfl rfl).mpr hraises⟩

/-- What the host writes is no part that the consistency of a record speaks of. -/
theorem FaultRecordConsistent.of_hostWritten {s t : State} (hs : FaultRecordConsistent s)
    (h : OnlyChanges HostWritten s t) : FaultRecordConsistent t := by
  have hfault : t.fault = s.fault := h .fault (by simp [HostWritten])
  have hpc : t.pc = s.pc := h .pc (by simp [HostWritten])
  have hreg (r : RegIdx) : t.reg r = s.reg r := h (.reg r) (by simp [HostWritten])
  have hI : t.I = s.I := h .index (by simp [HostWritten])
  have hsp : t.sp = s.sp := h .sp (by simp [HostWritten])
  have hconfig : t.config = s.config := h .config (by simp [HostWritten])
  simpa only [FaultRecordConsistent, hfault, hpc, raisesIn_congr hreg hI hsp hconfig] using hs

theorem stepCommand_keeps_faultRecordConsistent {s : State} (hs : FaultRecordConsistent s) :
    FaultRecordConsistent (stepCommand s).1 := by
  obtain hnext | hsame := stepCommand_cases s
  · obtain ⟨-, hnone | ⟨c, w, hraises, ht⟩⟩ := step_fault_cases hnext
    · exact faultRecordConsistent_of_fault_none hnone
    · exact ht ▸ hraises.consistent
  · exact hsame.symm ▸ hs

theorem runCommand_keeps_faultRecordConsistent (c : Command) {s : State} (hs : FaultRecordConsistent s) :
    FaultRecordConsistent (runCommand c s).1 := by
  cases c with
  | reset => exact faultRecordConsistent_of_fault_none rfl
  | step => exact stepCommand_keeps_faultRecordConsistent hs
  | load | timerTick | setKey | readDisplay => refine hs.of_hostWritten (runCommand_frame ?_ ?_ s) <;> nofun

/-- Settles O50, by induction on the commands. -/
theorem commandsKeepFaultRecordConsistent : Obligations.CommandsKeepFaultRecordConsistent := by
  intro cs
  induction cs with
  | nil => exact fun _ hs => hs
  | cons c rest ih => exact fun s hs => ih _ (runCommand_keeps_faultRecordConsistent c hs)

end Sys2Proof.Machine
end

section
/-! PROOFS. Construction and the reset command (70_reset_and_hazards.md R180, R181). The constructed memory reads as the
glyph set followed by zeros, whatever the parameters; every other part but the parameters is as in `State.reset`. -/

namespace Sys2Proof.Machine

/-! ## The constructed memory (10_state.md R33, R36) -/

/-- Inside the glyph set the written byte is read; above it the byte is unlisted, and its reset contents are 0. -/
theorem construct_mem_read (c : Config) (a : Nat) : (construct c).mem.read a = c.glyphRom.toList.getD a 0 := by
  have hread := Memory.read_writeBytes State.reset.mem 0 c.glyphRom.toList a
  rw [Vector.length_toList, Nat.sub_zero, Nat.zero_add] at hread
  refine hread.trans ?_
  by_cases ha : a < 80
  · exact if_pos ⟨a.zero_le, ha⟩
  · rw [if_neg (ha ·.2), List.getD_eq_default _ _ (by simpa using ha)]
    exact List.getD_eq_default _ _ (by simpa using ha)

theorem construct_mem_wf (c : Config) : (construct c).mem.wf :=
  Memory.wf_writeBytes State.reset_mem_wf (by simp [memSize])

/-- Equal reads at every address make the constructed memory the empty list of the reset state. -/
theorem construct_defaultConfig_mem : (construct defaultConfig).mem = State.reset.mem :=
  Memory.ext_of_read (construct_mem_wf defaultConfig) State.reset_mem_wf (construct_mem_read defaultConfig)

theorem construct_defaultConfig : construct defaultConfig = State.reset :=
  congrArg (fun m => { State.reset with mem := m }) construct_defaultConfig_mem

/-- Settles O53: the memory by the laws above, every other part by the zeros of the reset state. -/
theorem constructedStateIsAsSpecified : Obligations.ConstructedStateIsAsSpecified := by
  refine ⟨construct_defaultConfig, fun c => ⟨fun a => ?glyphs, fun a ha => ?zeros,
    fun r => Vector.getElem_replicate r.isLt, rfl, rfl, fun k => Vector.getElem_replicate k.isLt, rfl,
    Framebuffer.pixel_clear, fun k => Vector.getElem_replicate k.isLt, rfl, rfl, rfl, rfl⟩⟩
  case glyphs => exact (construct_mem_read c a).trans (List.getD_eq_getElem _ _ (by simp))
  case zeros => exact (construct_mem_read c a).trans (List.getD_eq_default _ _ (by simpa using ha))

/-! ## The reset command (70_reset_and_hazards.md R181) -/

theorem resetMachine_fault (s : State) : (resetMachine s).fault = none := rfl

/-- Settles O54: `resetMachine` reads only the parameters and the draw counter of the state before. -/
theorem resetRestoresConstructedState : Obligations.ResetRestoresConstructedState :=
  fun s => ⟨rfl, resetMachine_fault s⟩

end Sys2Proof.Machine
end

section
/-! PROOFS. The canonical form of the memory (20_memory.md R40, R43; notes/assumptions/3.md): canonical memories that
read alike are equal data, every command keeps the form, and construction meets it with the other two invariants. -/

namespace Sys2Proof.Machine

/-! ## Reads outside the address space -/

/-- A canonical memory lists nothing outside the address space (20_memory.md R40). -/
theorem Memory.read_outside {lo : Nat} {m : Memory} (hm : Memory.wfFrom lo m) {a : Nat} (ha : memSize ≤ a) :
    m.read a = resetByte a := by
  induction m generalizing lo with
  | nil => rfl
  | cons e rest ih =>
    obtain ⟨k, b⟩ := e
    simp only [Memory.wfFrom, Bool.and_eq_true, decide_eq_true_eq] at hm
    obtain ⟨⟨⟨-, hk⟩, -⟩, hrest⟩ := hm
    rw [Memory.read, if_neg (hk.trans_le ha).ne', ih hrest]

/-- Settles O52: outside the address space both memories read as at reset, so they read alike everywhere. -/
theorem canonicalMemoriesReadingAlikeAreEqual : Obligations.CanonicalMemoriesReadingAlikeAreEqual := by
  intro m m' hm hm' hin
  refine Memory.ext_of_read hm hm' fun a => ?_
  by_cases ha : a < memSize
  · exact hin a ha
  · have hout : memSize ≤ a := Nat.le_of_not_lt ha
    rw [Memory.read_outside hm hout, Memory.read_outside hm' hout]

/-! ## What an instruction does to the memory as data -/

/-- The memory of `t` is the one of `s`, or the one a bounded store of bytes from `I` up answers
(43_index_memory.md R123, R124). -/
def MemoryKeptOrStored (s t : State) : Prop :=
  t.mem = s.mem ∨ ∃ bs, writeBlock s.mem s.I.toNat bs = .ok t.mem

theorem MemoryKeptOrStored.wf {s t : State} (h : MemoryKeptOrStored s t) (hs : s.mem.wf) : t.mem.wf := by
  obtain hkept | ⟨bs, hstored⟩ := h
  · exact hkept ▸ hs
  · exact writeBlock_wf hs hstored

theorem State.push_mem {s t : State} {w : Word} (h : s.push w = .ok t) : t.mem = s.mem := by
  obtain ⟨-, u, hu, -, -, heq⟩ | ⟨-, herr⟩ := s.push_cases w
  · obtain rfl := Except.ok.inj (hu.symm.trans h)
    rw [heq]
  · exact absurd (herr.symm.trans h) nofun

theorem State.pop_mem {s t : State} {w : Word} (h : s.pop = .ok (w, t)) : t.mem = s.mem := by
  obtain ⟨k, u, -, hu, -, heq⟩ | ⟨-, herr⟩ := s.pop_cases
  · obtain ⟨-, rfl⟩ := Prod.mk.inj (Except.ok.inj (hu.symm.trans h))
    rw [heq]
  · exact absurd (herr.symm.trans h) nofun

/-- An access followed by an update: a fault keeps the memory, so enough is what the update does to it. -/
theorem access_memory {α : Type} {i : Instr} {s t : State} {r : Except FaultCause α} {f : α → State}
    {outcome : Host.Outcome State Fault Refusal} (heq : outcome = finish i s (r.map f)) (h : outcome = .next t)
    (hok : ∀ a, r = .ok a → MemoryKeptOrStored s (f a)) : MemoryKeptOrStored s t := by
  have hfinish := heq.symm.trans h
  cases r with
  | ok a => exact Host.Outcome.next.inj hfinish ▸ hok a rfl
  | error c => exact Host.Outcome.next.inj hfinish ▸ .inl rfl

theorem storeAtIndex_memory {i : Instr} {bs : List Byte} {s t : State} (h : storeAtIndex i bs s = .next t) :
    MemoryKeptOrStored s t :=
  access_memory (storeAtIndex_eq i bs s) h fun _ hstored => .inr ⟨bs, hstored⟩

theorem skipOnKey_memory {i : Instr} {x : RegIdx} {level : Bool} {s t : State}
    (h : skipOnKey i x level s = .next t) : MemoryKeptOrStored s t :=
  access_memory (skipOnKey_eq i x level s) h fun _ _ => .inl rfl

theorem execSys_memory {nnn : Addr12} {s t : State} (h : execSys nnn s = .next t) : MemoryKeptOrStored s t := by
  unfold execSys at h
  split at h
  · exact Host.Outcome.next.inj h ▸ .inl rfl
  · exact Host.Outcome.next.inj h ▸ .inl rfl

theorem execLdVxK_memory {x : RegIdx} {s t : State} (h : execLdVxK x s = .next t) : MemoryKeptOrStored s t := by
  unfold execLdVxK at h
  split at h
  · exact Host.Outcome.next.inj h ▸ .inl rfl
  · split at h
    · exact Host.Outcome.next.inj h ▸ .inl rfl
    · cases h

/-- An instruction writes the memory by one bounded block write, or not at all (10_state.md R38). -/
theorem exec_memory {i : Instr} {s t : State} (h : exec i s = .next t) : MemoryKeptOrStored s t := by
  cases i with
  | ldB | storeRegs => exact storeAtIndex_memory h
  | skp | sknp => exact skipOnKey_memory h
  | sys => exact execSys_memory h
  | ldVxK => exact execLdVxK_memory h
  | ret => exact access_memory (execRet_eq s) h fun _ hpop => .inl ((State.goto_mem ..).trans (State.pop_mem hpop))
  | call nnn =>
    exact access_memory (execCall_eq nnn s) h fun _ hpush => .inl ((State.goto_mem ..).trans (State.push_mem hpush))
  | drw x y n => exact access_memory (execDrw_eq x y n s) h fun _ _ => .inl rfl
  | loadRegs x => exact access_memory (execLoadRegs_eq x s) h fun _ _ => .inl rfl
  | _ => exact Host.Outcome.next.inj h ▸ .inl rfl

/-! ## Every command keeps the canonical form -/

/-- A step records a fault, which leaves the memory, or runs an instruction. -/
theorem step_keeps_mem_wf {s t : State} (hs : s.mem.wf) (h : step s = .next t) : t.mem.wf := by
  obtain ⟨-, ⟨c, -, rfl⟩ | ⟨w, e, -, -, rfl⟩ | ⟨w, i, -, -, hexec⟩⟩ := step_next h
  · exact hs
  · exact hs
  · exact (exec_memory hexec).wf hs

theorem stepCommand_keeps_mem_wf {s : State} (hs : s.mem.wf) : (stepCommand s).1.mem.wf := by
  obtain hnext | hsame := stepCommand_cases s
  · exact step_keeps_mem_wf hs hnext
  · exact hsame.symm ▸ hs

/-- An image that fits lies between the program base and the end of the address space (00_scope.md R7). -/
theorem loadProgram_keeps_mem_wf (image : List Byte) {s : State} (hs : s.mem.wf) :
    (loadProgram image s).1.mem.wf := by
  by_cases hfits : image.length ≤ maxProgram
  · rw [loadProgram_of_fits hfits]
    exact Memory.wf_writeBytes hs (Nat.add_le_add_left hfits programBase)
  · rwa [loadProgram_of_tooLarge (Nat.lt_of_not_le hfits)]

/-- Settles O49: the commands one by one; a reset constructs its memory, and three commands leave it. -/
theorem commandsKeepMemoryCanonical : Obligations.CommandsKeepMemoryCanonical := by
  intro c s hs
  cases c with
  | reset => exact construct_mem_wf s.config
  | load image => exact loadProgram_keeps_mem_wf image hs
  | step => exact stepCommand_keeps_mem_wf hs
  | timerTick | setKey | readDisplay => exact hs

/-! ## The invariants of the constructed state (70_reset_and_hazards.md R180) -/

theorem programBase_le_pcBound (c : PcContract) : programBase ≤ pcBound c := by
  cases c <;> decide

theorem construct_addressesBounded (c : Config) : AddressesBounded (construct c) := by
  refine ⟨programBase_le_pcBound c.pcContract, fun k => ?_⟩
  have hzero : (construct c).stack.get k = 0 := Vector.getElem_replicate k.isLt
  exact hzero ▸ Nat.zero_le _

/-- Settles O48: the reset state is the one constructed for the default parameters. -/
theorem constructedStateMeetsInvariants : Obligations.ConstructedStateMeetsInvariants := by
  have hall (c : Config) :
      AddressesBounded (construct c) ∧ (construct c).mem.wf ∧ FaultRecordConsistent (construct c) :=
    ⟨construct_addressesBounded c, construct_mem_wf c, faultRecordConsistent_of_fault_none rfl⟩
  exact ⟨construct_defaultConfig ▸ hall defaultConfig, hall⟩

end Sys2Proof.Machine
end
